-- ==== Sys2Proof/Word.lean ====
section
/-! DEFINITION. The two widths of every field of a request and a response (spec/00_scope.md R8, spec/30_encoding.md R68). -/

namespace Sys2Proof

/-- A byte: an 8-bit field, bit 0 its least significant bit (R9). -/
abbrev Byte := BitVec 8

/-- A 16-bit field: a coil address or count, a register address or count, a register word (R8, R68). -/
abbrev Word := BitVec 16

end Sys2Proof
end

