-- ==== Sys2Proof/Config.lean ====
section
/-! DEFINITION. What a construction of MBCS fixes (spec/00_scope.md R7; log 1 and log 2) and the free values of the external
inputs. -/

namespace Sys2Proof.Config

/-- `P_REG_EXTENT`: the number of addressable holding and input register words (R7). -/
abbrev regExtent : Nat := 20

/-- `P_DUTY_MAX`: the upper clamp of `DUTY` (R7). -/
abbrev dutyMax : Nat := 255

/-- `COIL_ON`, the value code of FC 0x05 that writes 1 (R7, R78). -/
abbrev coilOn : Word := 0xFF00#16

/-- `COIL_OFF`, the value code of FC 0x05 that writes 0 (R7, R78). -/
abbrev coilOff : Word := 0x0000#16

/-- The largest legal `N` (R7, decision D15). -/
abbrev maxCapacity : Nat := 2040

/-- `P_REG_ERROR_TRAILER`: what follows an FC 0x03 or FC 0x04 exception response (R7, R134). -/
inductive RegErrorTrailer where
  | suppress
  | append
deriving DecidableEq, Repr

/-- `P_UNSUPPORTED_FC`: the outcome for a function code with no handler (R7, R77). -/
inductive UnsupportedFc where
  | noHandler
  | illegalFunction
deriving DecidableEq, Repr

/-- The parameters of rule R7 that have more than one legal value. They are fixed when the block is
constructed and no operation changes them (R23, R205, R208; log 1). -/
structure Params where
  /-- `N`, the coil count; legal range 1..2040. -/
  capacity : Nat := 1
  regErrorTrailer : RegErrorTrailer := .suppress
  unsupportedFc : UnsupportedFc := .noHandler
  /-- `P_DUTY_RESET`, the reset value of `DUTY`. -/
  dutyReset : Byte := 0#8
deriving DecidableEq, Repr

/-- The defaults of rule R7. -/
def Params.default : Params := {}

/-- The legal parameters: `1 <= N <= 2040` (R7). -/
def Params.legal (p : Params) : Bool :=
  decide (1 ≤ p.capacity) && decide (p.capacity ≤ maxCapacity)

/-- One value of the random source, in `[1, 65535]`: the draw `r` stands for the word `r + 1`, so that the word 0,
which is no legal draw (R174), has no representation. -/
abbrev RandDraw := Fin 65535

/-- FREE VALUE (log 6): the `k`-th draw of `RAND` beyond those the environment has supplied. Nothing constrains it but its
range (R174: "with no distribution and no generator algorithm"). -/
opaque freeRand : Nat → RandDraw

/-- FREE VALUE (log 5): the `k`-th sample of `DIST` taken while `dist_in` has never been driven (R37: "not given by
any source and is a draw"). -/
opaque freeDist : Nat → Word

end Sys2Proof.Config
end

