-- ==== Sys2Proof/Syntax.lean ====
section
/-! DEFINITION. The requests of MBCS, one constructor per row of spec/opcode_table.json. A constructor's arguments are the
decoded fields of the request in wire order (spec/30_encoding.md R69 to R73, R77). -/

namespace Sys2Proof

/-- A decoded request. -/
inductive Instr where
  /-- FC 0x01, READ_COIL (R69). -/
  | readCoil (unit : Byte) (start count : Word)
  /-- FC 0x03, READ_HOLD_REGISTER (R70). -/
  | readHoldRegister (unit : Byte) (addr wordCount : Word)
  /-- FC 0x04, READ_INPUT_REGISTER (R70). -/
  | readInputRegister (unit : Byte) (addr wordCount : Word)
  /-- FC 0x05, WRITE_COIL (R71). -/
  | writeCoil (unit : Byte) (coilIndex onOffCode : Word)
  /-- FC 0x06, WRITE_HOLD_REGISTER (R72). -/
  | writeHoldRegister (unit : Byte) (addr value : Word)
  /-- FC 0x0F, WRITE_MULT_COILS (R73). `packed` holds those of the `byteCount` declared bytes of the packed run
  that the request holds: fewer than `byteCount` when the request ends before the run does, which the handler answers
  only after its checks (R79, R132). -/
  | writeMultCoils (unit : Byte) (start count : Word) (byteCount : Byte) (packed : List Byte)
  /-- Any other function code (R77). -/
  | unsupported (unit fc : Byte)
deriving DecidableEq, Repr

end Sys2Proof
end

