-- ==== Sys2Proof/Machine/State.lean ====
section
/-! DEFINITION. The state of MBCS as plain data: its three persistent elements (spec/10_state.md R20), its construction-time
parameters (spec/00_scope.md R7), the transient state of one transaction (R31), its ports (spec/43_ports.md R170), and the
reasons a step can stop. -/

namespace Sys2Proof.Machine

/-- A byte buffer as (byte index, byte) pairs; an unlisted byte reads as `0x00`, the reset contents of `CB` (R34,
log 16). -/
abbrev Memory := List Host.Cell

/-- The canonical form: byte indices strictly rising, and no entry equal to what an unlisted byte reads as. -/
abbrev Memory.wf (m : Memory) : Prop :=
  m.Pairwise (fun c d => c.1 < d.1) ∧ ∀ c ∈ m, c.2 ≠ 0#8

/-- The outcome of one request on `rsp_out` (R12, R123). -/
inductive Reply where
  | success (bytes : List Byte)
  | exception (bytes : List Byte)
  /-- The function code has no handler and `P_UNSUPPORTED_FC = NoHandler` (R77): no bytes. -/
  | noHandler
  /-- The request breaks the length contract (R79): no bytes. -/
  | refused
deriving DecidableEq, Repr

/-- What an operation puts out (R170). -/
inductive PortOutput where
  /-- A transaction's outcome, on `rsp_out`. -/
  | response (r : Reply)
  /-- The bit that `TAKE_TRIGGER` returns (R171). -/
  | taken (trig : Bool)
deriving DecidableEq, Repr

/-- What the environment presents, in order (R58, R176): the operations of MBCS, and the changes of its input pins
between them. -/
inductive Operation where
  /-- A request body on `req_in`. -/
  | request (body : List Byte)
  /-- The consumer's `TAKE_TRIGGER` (R171). -/
  | takeTrigger
  /-- `RESET` on `reset_in` (R205). -/
  | reset
  /-- The sampling loop drives `dist_in` (R173). -/
  | driveDist (d : Word)
  /-- The random source supplies further values on `rand_in` (R174). -/
  | driveRand (draws : List Config.RandDraw)
  /-- The storage asserts or releases `sfault_in` (R175). -/
  | driveSfault (b : Bool)
deriving DecidableEq, Repr

/-- The transient state of one transaction (R31). -/
structure Txn where
  /-- `REQ`, the request body (R110). -/
  req : List Byte := []
  /-- The decoder cursor `off` (R110). -/
  off : Nat := 0
  /-- The latch of the unit identifier. -/
  unit : Byte := 0#8
  /-- The latch of the function code. -/
  fc : Byte := 0#8
  /-- The latches of the handler's fields, under the names R69 to R73 give them. -/
  fields : Option Instr := none
  /-- `RSP`, the response buffer (R116). -/
  rsp : List Byte := []
  /-- `RSP_ERR`, the error marker (R116). -/
  rspErr : Bool := false
deriving DecidableEq, Repr

/-- Between operations there is no transaction (R37): every transient is empty (log 9). -/
def Txn.idle : Txn := {}

/-- The state of MBCS and of its ports. -/
structure State where
  /-- The parameters the block was constructed with (R7, R23). -/
  params : Config.Params
  /-- `CB`, the bytes of the coil store (R21). -/
  cb : Memory
  /-- `DUTY` (R25). -/
  duty : Byte
  /-- `TRIG` (R27). -/
  trig : Bool
  /-- The transaction in progress (R31). -/
  txn : Txn
  /-- What the most recent operation put out (R170, log 4). -/
  portOut : Option PortOutput
  /-- The operations and pin changes the environment has presented and MBCS has not yet taken, oldest first (R58, log 3). -/
  pending : List Operation
  /-- The level on `dist_in`; none while it has never been driven (R37, R173, log 5). -/
  distIn : Option Word
  /-- The supplied and not yet drawn values of `rand_in` (R174, log 6). -/
  randIn : List Config.RandDraw
  /-- The level on `sfault_in` (R175, log 7). -/
  sfaultIn : Bool
  /-- The model's own: the index of the next free value (log 8). -/
  freeCount : Nat
deriving DecidableEq, Repr

/-- Why the machine would stop with a fault. There is no such reason: "There is no fatal/crashing error path in this
core" (spec/60_exceptions.md R186). -/
inductive Fault where
deriving DecidableEq, Repr

/-- Why the model gives a step no meaning. -/
inductive Refusal where
  /-- An instruction of the table that has no meaning in the model; raised only by an arm of `exec`. Safe. No arm raises it. -/
  | notModelled (mnemonic : String)
  /-- `step` on a block constructed with `N` outside 1..2040, which a model must refuse (R7, decision D15, log 14). Safe. -/
  | illegalCapacity
  /-- `write_range` given fewer bytes than it must read, which the spec lets a model refuse (R94, log 13). Safe. No
  handler reaches it (R141). -/
  | packedRunTooShort
deriving DecidableEq, Repr

/-- MBCS right after construction with the parameters `p` and the `RESET` that must come first (R205, R206, R208): every
coil 0 (R34), `DUTY = P_DUTY_RESET` (R35), `TRIG = 0` (R36), no transaction (R37), nothing put out, nothing presented. -/
def State.construct (p : Config.Params) : State where
  params := p
  cb := []
  duty := p.dutyReset
  trig := false
  txn := Txn.idle
  portOut := none
  pending := []
  distIn := none
  randIn := []
  sfaultIn := false
  freeCount := 0

/-- The machine right after reset, with the default parameters of R7. -/
def State.reset : State := State.construct Config.Params.default

end Sys2Proof.Machine
end

