-- ==== Sys2Proof/Machine/Flags.lean ====
section
/-! DEFINITION. `TRIG`, the only status flag (spec/10_state.md R27, R38). -/

namespace Sys2Proof.Machine

/-- `TRIG <- 1`, once per successful write transaction; a level, so setting it twice is setting it once
(spec/42_function_codes.md R138). -/
def setTrig (s : State) : State := { s with trig := true }

/-- `TRIG <- 0`, by `TAKE_TRIGGER` (R171) and by reset (R36). -/
def clearTrig (s : State) : State := { s with trig := false }

end Sys2Proof.Machine
end

