-- ==== Sys2Proof/WellFormed.lean ====
section
/-! DEFINITION. Which requests have an encoding of their own. -/

namespace Sys2Proof

/-- The function codes that select a handler (spec/30_encoding.md R76). -/
def supportedCodes : List Byte := [0x01#8, 0x03#8, 0x04#8, 0x05#8, 0x06#8, 0x0F#8]

/-- A request is well formed when it is what some bytes on the wire decode to: an unsupported code is none of the six
supported ones (R77), and a packed run holds at most the `byteCount` bytes that the request declares (R73). The other
formats admit every value of every field (R69 to R72): an illegal value of a field is answered by the handler. -/
def Instr.wf : Instr → Bool
  | .readCoil _ _ _ => true
  | .readHoldRegister _ _ _ => true
  | .readInputRegister _ _ _ => true
  | .writeCoil _ _ _ => true
  | .writeHoldRegister _ _ _ => true
  | .writeMultCoils _ _ _ byteCount packed => decide (packed.length ≤ byteCount.toNat)
  | .unsupported _ fc => !supportedCodes.contains fc

end Sys2Proof
end

