-- ==== Sys2Proof/Decode.lean ====
section
/-! DEFINITION. The request decoder and its inverse: byte order, the cursor reads of spec/41_codec.md R110 to R115, the
selection by function code of spec/30_encoding.md R76, and the encoder from the same formats R69 to R73. -/

namespace Sys2Proof

/-- `v[15:8]`, the byte a 16-bit field sends first (spec/20_memory.md R50). -/
def hiByte (v : Word) : Byte := v.extractLsb' 8 8

/-- `v[7:0]`, the byte a 16-bit field sends second (R50). -/
def loByte (v : Word) : Byte := v.extractLsb' 0 8

/-- The big-endian 16-bit field of two consecutive bytes, `hi * 256 + lo` (R50, R52, R81). -/
def wordOfBytes (hi lo : Byte) : Word := hi ++ lo

/-- The two bytes of a 16-bit field, most significant first (R50). -/
def wordBytes (v : Word) : List Byte := [hiByte v, loByte v]

/-- `Req8(o)`: the byte at offset `o` and the cursor after it; none when the read would pass the end (R111, R115). -/
def req8 (req : List Byte) (o : Nat) : Option (Byte × Nat) :=
  match req[o]? with
  | some b => some (b, o + 1)
  | none => none

/-- `Req16(o)`: the big-endian 16-bit field at offset `o` and the cursor after it (R112). -/
def req16 (req : List Byte) (o : Nat) : Option (Word × Nat) :=
  match req[o]?, req[o + 1]? with
  | some hi, some lo => some (wordOfBytes hi lo, o + 2)
  | _, _ => none

/-- `ReqRun(o, n)`: the `n` bytes from offset `o` and the cursor after them (R113). -/
def reqRun (req : List Byte) (o n : Nat) : Option (List Byte × Nat) :=
  if o + n > req.length then none else some ((req.drop o).take n, o + n)

/-- `get(o, a:16, b:16)`: two 16-bit fields read in order (R114). -/
def getTwoWords (req : List Byte) (o : Nat) : Option (Word × Word × Nat) :=
  match req16 req o with
  | none => none
  | some (a, o₁) =>
    match req16 req o₁ with
    | none => none
    | some (b, o₂) => some (a, b, o₂)

/-- `get(o, a:16, b:16, c:8)`: the fixed fields of FC 0x0F (R114, R126). -/
def getTwoWordsByte (req : List Byte) (o : Nat) : Option (Word × Word × Byte × Nat) :=
  match getTwoWords req o with
  | none => none
  | some (a, b, o₁) =>
    match req8 req o₁ with
    | none => none
    | some (c, o₂) => some (a, b, c, o₂)

/-- Why a byte sequence holds no request: each is an input outside the length contract of R79 and has the outcome
`Refused`. -/
inductive DecodeReject where
  /-- Fewer than two bytes: there is no function code (R79). -/
  | noFunctionCode
  /-- The function code has a handler, and the request is shorter than the handler's fixed fields (R79). -/
  | fieldsMissing
deriving DecidableEq, Repr

/-- What the decoder answers. -/
inductive Decoded where
  | request (i : Instr)
  | reject (r : DecodeReject)
deriving DecidableEq, Repr

/-- A handler's two 16-bit fields, read from offset 2 (R126). -/
def decodeTwoWords (mk : Word → Word → Instr) (req : List Byte) (o : Nat) : Decoded :=
  match getTwoWords req o with
  | some (a, b, _) => .request (mk a b)
  | none => .reject .fieldsMissing

/-- The fixed fields of FC 0x0F. The bytes from the cursor on that belong to the declared run are handed to the
handler as they stand, unread: it takes the run from them with `ReqRun` after `byte_count` has passed its check
(R115, R132, R212; log 11). -/
def decodeMultCoils (unit : Byte) (req : List Byte) (o : Nat) : Decoded :=
  match getTwoWordsByte req o with
  | some (start, count, byteCount, o₁) =>
    .request (.writeMultCoils unit start count byteCount ((req.drop o₁).take byteCount.toNat))
  | none => .reject .fieldsMissing

/-- The selection by function code, an exact match on all 8 bits, whatever the unit (R76); every other code is
unsupported and no further byte is read (R77). -/
def decodeByCode (unit fc : Byte) (req : List Byte) (o : Nat) : Decoded :=
  if fc = 0x01#8 then decodeTwoWords (.readCoil unit) req o
  else if fc = 0x03#8 then decodeTwoWords (.readHoldRegister unit) req o
  else if fc = 0x04#8 then decodeTwoWords (.readInputRegister unit) req o
  else if fc = 0x05#8 then decodeTwoWords (.writeCoil unit) req o
  else if fc = 0x06#8 then decodeTwoWords (.writeHoldRegister unit) req o
  else if fc = 0x0F#8 then decodeMultCoils unit req o
  else .request (.unsupported unit fc)

/-- The request decoder, total on any bytes: `get(0, unit:8, fc:8)`, then the fields of the selected format
(spec/42_function_codes.md R125, R126). Bytes beyond the format are ignored (R79). -/
def decode (req : List Byte) : Decoded :=
  match req8 req 0 with
  | none => .reject .noFunctionCode
  | some (unit, o) =>
    match req8 req o with
    | none => .reject .noFunctionCode
    | some (fc, o₁) => decodeByCode unit fc req o₁

/-- Byte 0 of a request, the unit identifier (R65). -/
def Instr.unit : Instr → Byte
  | .readCoil unit _ _ => unit
  | .readHoldRegister unit _ _ => unit
  | .readInputRegister unit _ _ => unit
  | .writeCoil unit _ _ => unit
  | .writeHoldRegister unit _ _ => unit
  | .writeMultCoils unit _ _ _ _ => unit
  | .unsupported unit _ => unit

/-- Byte 1 of a request, the function code (R65, R76). -/
def Instr.fc : Instr → Byte
  | .readCoil _ _ _ => 0x01#8
  | .readHoldRegister _ _ _ => 0x03#8
  | .readInputRegister _ _ _ => 0x04#8
  | .writeCoil _ _ _ => 0x05#8
  | .writeHoldRegister _ _ _ => 0x06#8
  | .writeMultCoils _ _ _ _ _ => 0x0F#8
  | .unsupported _ fc => fc

/-- The cursor after the header and the fixed fields: 6, for FC 0x0F 7, and 2 where no field is read (R69 to R73,
R77). -/
def Instr.fixedLength : Instr → Nat
  | .readCoil _ _ _ => 6
  | .readHoldRegister _ _ _ => 6
  | .readInputRegister _ _ _ => 6
  | .writeCoil _ _ _ => 6
  | .writeHoldRegister _ _ _ => 6
  | .writeMultCoils _ _ _ _ _ => 7
  | .unsupported _ _ => 2

/-- The bytes of a request that its format has (R69 to R73, R82). -/
def encode : Instr → List Byte
  | .readCoil unit start count => [unit, 0x01#8] ++ wordBytes start ++ wordBytes count
  | .readHoldRegister unit addr wordCount => [unit, 0x03#8] ++ wordBytes addr ++ wordBytes wordCount
  | .readInputRegister unit addr wordCount => [unit, 0x04#8] ++ wordBytes addr ++ wordBytes wordCount
  | .writeCoil unit coilIndex onOffCode => [unit, 0x05#8] ++ wordBytes coilIndex ++ wordBytes onOffCode
  | .writeHoldRegister unit addr value => [unit, 0x06#8] ++ wordBytes addr ++ wordBytes value
  | .writeMultCoils unit start count byteCount packed =>
    [unit, 0x0F#8] ++ wordBytes start ++ wordBytes count ++ [byteCount] ++ packed
  | .unsupported unit fc => [unit, fc]

/-- `w` as `n` bytes, the least significant first. -/
def bytesOfNat : Nat → Nat → List Byte
  | 0, _ => []
  | n + 1, w => BitVec.ofNat 8 w :: bytesOfNat n (w / 256)

/-- The longest request: `7 + byte_count` bytes with `byte_count = 255` (R73, R80). -/
def maxRequestLength : Nat := 262

/-- The request whose table bits are `w`. The table's rows match byte 1 of the request (`match_byte` 1) and number that
byte's bits 7..0, so the table's bit 0 is bit 0 of request byte 1; byte 0, the unit, which no row fixes, is 0, and the
bits above `nbits` are 0 up to the longest request (log 10). -/
def tableWordBytes (nbits w : Nat) : List Byte :=
  0#8 :: bytesOfNat (maxRequestLength - 1) (w % 2 ^ nbits)

/-- The request the decoder reads from an instruction whose table bits are `w`. -/
def decodeTableWord (nbits w : Nat) : Option Instr :=
  match decode (tableWordBytes nbits w) with
  | .request i => some i
  | .reject _ => none

end Sys2Proof
end

