-- ==== Sys2Proof/Machine/Operands.lean ====
section
/-! DEFINITION. Operand forms: bit positions of packed coils (spec/20_memory.md R51), the byte counts, the value code of FC
0x05, the clamp of FC 0x06, the exception codes. Arithmetic is on unbounded naturals (spec/00_scope.md R10). -/

namespace Sys2Proof.Machine

/-- `ceil(n/8)`, the bytes that `n` packed coils take (R10, R92). -/
abbrev ceilDiv8 (n : Nat) : Nat := (n + 7) / 8

/-- `(count >> 3) + 1`, the one legal `byte_count` of FC 0x0F (R141). -/
abbrev declaredBytes (count : Nat) : Nat := count / 8 + 1

/-- Bit `k` of a byte set to `v`, the other bits as they were. -/
def setBit (b : Byte) (k : Nat) (v : Bool) : Byte :=
  if v then b ||| (1#8 <<< k) else b &&& ~~~(1#8 <<< k)

/-- The byte whose bit `k` is `f k` (R51: LSB first), built as the loop of R92 builds it. -/
def packByte (f : Nat → Bool) : Byte :=
  (List.range 8).foldl (fun b k => if f k then b ||| (1#8 <<< k) else b) 0#8

/-- Bit `i` of a packed run: bit `i & 7` of byte `i >> 3` (R51). -/
def runBit (run : List Byte) (i : Nat) : Bool :=
  (run.getD (i / 8) 0#8).getLsbD (i % 8)

/-- The legal values of `on_off_code` (R78). -/
def legalOnOffCode (code : Word) : Bool :=
  code == Config.coilOff || code == Config.coilOn

/-- The Boolean the store takes for an `on_off_code`: 1 exactly for `0xFF00` (R139). -/
def onOffValue (code : Word) : Bool := code == Config.coilOn

/-- `min(value, 255)` as the 8 bits of `DUTY` (R140). -/
def clampDuty (value : Word) : Byte := BitVec.ofNat 8 (min value.toNat Config.dutyMax)

/-- The word that a draw of `RAND` stands for, in `[1, 65535]` (R174). -/
def randWord (r : Config.RandDraw) : Word := BitVec.ofNat 16 (r.val + 1)

/-- The internal error kinds (spec/60_exceptions.md R180). -/
inductive ErrorKind where
  /-- An address or count outside the storage bounds. -/
  | outOfRange
  /-- A declared byte count inconsistent with the coil count. -/
  | badByteCount
  /-- A parameter outside an enumerated valid set. -/
  | badValue
  /-- The underlying write rejected by the storage. -/
  | storageFault
deriving DecidableEq, Repr

/-- The Modbus exception code of an error kind (R181, R182): ILLEGAL_DATA_ADDRESS, ILLEGAL_DATA_VALUE twice,
SERVER_DEVICE_FAILURE. -/
def exceptionCode : ErrorKind → Byte
  | .outOfRange => 0x02#8
  | .badByteCount => 0x03#8
  | .badValue => 0x03#8
  | .storageFault => 0x04#8

/-- ILLEGAL_FUNCTION, used only with `P_UNSUPPORTED_FC = IllegalFunction` (R77, R182). -/
def illegalFunctionCode : Byte := 0x01#8

end Sys2Proof.Machine
end

