-- ==== Sys2Proof/Machine/Ops.lean ====
section
/-! DEFINITION. The shared operations: bytes of the coil buffer, coils, the store primitives (spec/40_coil_store.md R90 to
R94), the external inputs (spec/43_ports.md R173 to R175), the response encoder (spec/41_codec.md R116 to R123), opening
and ending a transaction, and taking an exception (spec/60_exceptions.md R181, R186). There is no return from an exception to
model: "There is no return-from-exception operation" (R187). -/

namespace Sys2Proof.Machine

/-! ## Bytes and coils -/

/-- The byte at index `a`; an unlisted byte is `0x00` (R34). -/
def Memory.read : Memory → Nat → Byte
  | [], _ => 0#8
  | c :: m, a => if c.1 = a then c.2 else Memory.read m a

/-- The buffer with `v` at index `a`, in canonical form: writing `0x00` removes the entry. -/
def Memory.write : Memory → Nat → Byte → Memory
  | [], a, v => if v = 0#8 then [] else [(a, v)]
  | c :: m, a, v =>
    if a < c.1 then (if v = 0#8 then c :: m else (a, v) :: c :: m)
    else if c.1 = a then (if v = 0#8 then m else (a, v) :: m)
    else c :: Memory.write m a v

/-- `COIL[i] = CB[i >> 3][i & 7]` (R21). -/
def Memory.coil (m : Memory) (i : Nat) : Bool := (m.read (i / 8)).getLsbD (i % 8)

/-- `COIL[i] <- v`: the other bits of the byte as they were (R93, R94). -/
def Memory.setCoil (m : Memory) (i : Nat) (v : Bool) : Memory :=
  m.write (i / 8) (setBit (m.read (i / 8)) (i % 8) v)

/-- The packed bytes of coils `start .. start+count-1`, LSB first, the bits above `count` 0 (R92). -/
def Memory.packCoils (m : Memory) (start count : Nat) : List Byte :=
  (List.range (ceilDiv8 count)).map fun j =>
    packByte fun k => decide (8 * j + k < count) && m.coil (start + 8 * j + k)

/-- `COIL[start + i] <- S[i >> 3][i & 7]` for `i` in `0 .. count-1` (R94). -/
def Memory.unpackCoils (m : Memory) (start : Nat) (run : List Byte) : Nat → Memory
  | 0 => m
  | n + 1 => (m.unpackCoils start run n).setCoil (start + n) (runBit run n)

/-- `COIL[i]` of the store. -/
def State.coil (s : State) (i : Nat) : Bool := s.cb.coil i

/-! ## External inputs -/

/-- `draw DIST` (R173): the level on `dist_in`; while it has never been driven, a free value (R37). -/
def drawDist (s : State) : Word × State :=
  match s.distIn with
  | some d => (d, s)
  | none => (Config.freeDist s.freeCount, { s with freeCount := s.freeCount + 1 })

/-- `draw RAND` (R174): the next supplied value; beyond those, a free value of the range. -/
def drawRand (s : State) : Word × State :=
  match s.randIn with
  | r :: rest => (randWord r, { s with randIn := rest })
  | [] => (randWord (Config.freeRand s.freeCount), { s with freeCount := s.freeCount + 1 })

/-- `n` successive draws of `RAND`. -/
def drawRands : Nat → State → List Word × State
  | 0, s => ([], s)
  | n + 1, s =>
    let d := drawRand s
    let ds := drawRands n d.2
    (d.1 :: ds.1, ds.2)

/-- `draw SFAULT` (R175): the level on `sfault_in`. A transaction draws it at most once. -/
abbrev drawSfault (s : State) : Bool := s.sfaultIn

/-! ## Store primitives -/

/-- How a store primitive fails. -/
inductive StoreFailure where
  /-- An index or range outside `[0, N)` (R96). -/
  | outOfRange
  /-- The storage rejected the write (R93, R94). -/
  | storageFault
  /-- The caller's precondition on the packed bytes is broken (R94, R97). -/
  | packedRunTooShort
deriving DecidableEq, Repr

/-- What a store primitive answers: a result, or its failure with the store unchanged. -/
inductive StoreResult (α : Type) where
  | done (a : α)
  | failed (f : StoreFailure)
deriving DecidableEq, Repr

/-- `capacity()` (R90). -/
abbrev capacity (s : State) : Nat := s.params.capacity

/-- `read_bit(index)` (R91). -/
def readBit (s : State) (index : Word) : StoreResult Bool :=
  if index.toNat ≥ capacity s then .failed .outOfRange else .done (s.coil index.toNat)

/-- `read_range(start, count)` (R92). -/
def readRange (s : State) (start count : Word) : StoreResult (List Byte) :=
  if start.toNat + count.toNat > capacity s then .failed .outOfRange
  else .done (s.cb.packCoils start.toNat count.toNat)

/-- `write_bit(start, value)`: the range first, then the storage (R93, R99). -/
def writeBit (s : State) (start : Word) (value : Bool) : StoreResult State :=
  if start.toNat ≥ capacity s then .failed .outOfRange
  else if drawSfault s then .failed .storageFault
  else .done { s with cb := s.cb.setCoil start.toNat value }

/-- `write_range(start, count, packed_bytes)`: the range first, then the storage, then all of the coils (R94, R99). It
needs `ceil(count/8)` bytes; with fewer the model gives no meaning (R97, log 13). -/
def writeRange (s : State) (start count : Word) (run : List Byte) : StoreResult State :=
  if start.toNat + count.toNat > capacity s then .failed .outOfRange
  else if drawSfault s then .failed .storageFault
  else if run.length < ceilDiv8 count.toNat then .failed .packedRunTooShort
  else .done { s with cb := s.cb.unpackCoils start.toNat run count.toNat }

/-! ## Response encoder -/

/-- `Add8(v)` (R117). -/
def add8 (v : Byte) (s : State) : State :=
  { s with txn := { s.txn with rsp := s.txn.rsp ++ [v] } }

/-- `Add16(v)`, most significant byte first (R118). -/
def add16 (v : Word) (s : State) : State :=
  { s with txn := { s.txn with rsp := s.txn.rsp ++ wordBytes v } }

/-- `AddRun(s)` (R119). -/
def addRun (run : List Byte) (s : State) : State :=
  { s with txn := { s.txn with rsp := s.txn.rsp ++ run } }

/-- `Add16` of each word in order. -/
def addWords : List Word → State → State
  | [], s => s
  | w :: ws, s => addWords ws (add16 w s)

/-- `SetError(unit, fc, code)`: any prior content is discarded (R120). -/
def setError (unit fc code : Byte) (s : State) : State :=
  { s with txn := { s.txn with rsp := [unit, fc ||| 0x80#8, code], rspErr := true } }

/-! ## A transaction's start and end -/

/-- The start of a transaction for the request `i` (R31, R116, R125): `REQ` the bytes of its format (the bytes beyond it
are ignored, R79; log 12), the cursor after the fixed fields, every field latched, `RSP = []`, `RSP_ERR = 0`. -/
def openTxn (i : Instr) (s : State) : State :=
  { s with
    txn :=
      { req := encode i, off := i.fixedLength, unit := i.unit, fc := i.fc, fields := some i, rsp := [], rspErr := false } }

/-- The end of a transaction with the outcome `r` on `rsp_out`; no transient survives it (R31, R123). -/
def emitReply (r : Reply) (s : State) : State :=
  { s with portOut := some (.response r), txn := Txn.idle }

/-- "emit outcome": `Exception(RSP)` if `RSP_ERR = 1`, `Success(RSP)` otherwise (R123). -/
def emit (s : State) : State :=
  emitReply (if s.txn.rspErr then .exception s.txn.rsp else .success s.txn.rsp) s

/-- The outcome `Refused`: no response bytes, no change of the persistent state (R79, R189). -/
def emitRefused (s : State) : State := emitReply .refused s

/-- TAKING AN EXCEPTION (R181, R186): the exception response with the code of the error kind, and the end of the
transaction. Nothing is saved and no other state changes. -/
def raise (k : ErrorKind) (s : State) : Host.Outcome State Fault Refusal :=
  .next (emit (setError s.txn.unit s.txn.fc (exceptionCode k) s))

/-- A store failure translated at the handler boundary (R133, R181). A broken precondition of the store has no
translation and the model refuses it (R94, log 13). -/
def storeFailed (f : StoreFailure) (s : State) : Host.Outcome State Fault Refusal :=
  match f with
  | .outOfRange => raise .outOfRange s
  | .storageFault => raise .storageFault s
  | .packedRunTooShort => .refused .packedRunTooShort

end Sys2Proof.Machine
end

