-- ==== Sys2Proof/Machine/Coils.lean ====
section
/-! DEFINITION. The coil function codes: FC 0x01 READ_COIL, FC 0x05 WRITE_COIL and FC 0x0F WRITE_MULT_COILS
(spec/42_function_codes.md R127, R130, R132). -/

namespace Sys2Proof.Machine

/-- READ_COIL (R127). -/
def execReadCoil (unit : Byte) (start count : Word) (s : State) : Host.Outcome State Fault Refusal :=
  let s := openTxn (.readCoil unit start count) s
  if start.toNat + count.toNat > capacity s then raise .outOfRange s
  else
    match readRange s start count with
    | .failed f => storeFailed f s
    | .done p =>
      .next (s |> add8 s.txn.unit |> add8 s.txn.fc |> add8 (BitVec.ofNat 8 (ceilDiv8 count.toNat)) |> addRun p |> emit)

/-- WRITE_COIL (R130): the value code first, whatever the address (90_conflicts.md C5), then the handler's own index
check `coil_index <= N` (R142), then the store. The response echoes `REQ[0..5]`. -/
def execWriteCoil (unit : Byte) (coilIndex onOffCode : Word) (s : State) : Host.Outcome State Fault Refusal :=
  let s := openTxn (.writeCoil unit coilIndex onOffCode) s
  if !legalOnOffCode onOffCode then raise .badValue s
  else if coilIndex.toNat > capacity s then raise .outOfRange s
  else
    match writeBit s coilIndex (onOffValue onOffCode) with
    | .failed f => storeFailed f s
    | .done s => .next (s |> setTrig |> addRun (s.txn.req.take 6) |> emit)

/-- WRITE_MULT_COILS (R132): address and count first (90_conflicts.md C6), then the byte count (R141), and only then the
packed run is read, at the cursor (R115, R126, R212); a request that ends before its run has the outcome `Refused` (R79).
The response is the shortened acknowledgement. -/
def execWriteMultCoils (unit : Byte) (start count : Word) (byteCount : Byte) (packed : List Byte) (s : State) :
    Host.Outcome State Fault Refusal :=
  let s := openTxn (.writeMultCoils unit start count byteCount packed) s
  if count = 0#16 ∨ start.toNat + count.toNat > capacity s then raise .outOfRange s
  else if byteCount.toNat ≠ declaredBytes count.toNat then raise .badByteCount s
  else
    match reqRun s.txn.req s.txn.off byteCount.toNat with
    | none => .next (emitRefused s)
    | some (run, _) =>
      match writeRange s start count run with
      | .failed f => storeFailed f s
      | .done s => .next (s |> setTrig |> add8 s.txn.unit |> add8 s.txn.fc |> add16 start |> add16 count |> emit)

end Sys2Proof.Machine
end

