-- ==== Sys2Proof/Machine/Registers.lean ====
section
/-! DEFINITION. The register function codes: FC 0x03 READ_HOLD_REGISTER, FC 0x04 READ_INPUT_REGISTER and FC 0x06
WRITE_HOLD_REGISTER (spec/42_function_codes.md R128, R129, R131). -/

namespace Sys2Proof.Machine

/-- The words of a holding-register read: one sample of `DIST`, repeated (R28, R128). -/
def holdWords (n : Nat) (s : State) : List Word × State :=
  let d := drawDist s
  (List.replicate n d.1, d.2)

/-- The words of an input-register read: a fresh draw of `RAND` each (R28, R129). -/
def inputWords (n : Nat) (s : State) : List Word × State := drawRands n s

/-- The header, the byte count `2*word_count` truncated to 8 bits, and the words: the success response (R74), and, after
an error with `P_REG_ERROR_TRAILER = Append`, the trailer (R134). -/
def addRegisters (words : Nat → State → List Word × State) (wordCount : Word) (s : State) : State :=
  let d := words wordCount.toNat s
  d.2 |> add8 s.txn.unit |> add8 s.txn.fc |> add8 (BitVec.ofNat 8 (2 * wordCount.toNat)) |> addWords d.1

/-- The one handler READ_HOLD/INPUT_REGISTER (R135), which differs between its function codes only in the source of the
words: the address check, with the error trailer of R134, or the words. -/
def readRegisters (words : Nat → State → List Word × State) (addr wordCount : Word) (s : State) :
    Host.Outcome State Fault Refusal :=
  if addr.toNat + wordCount.toNat > Config.regExtent then
    match s.params.regErrorTrailer with
    | .suppress => raise .outOfRange s
    | .append =>
      .next (emit (addRegisters words wordCount (setError s.txn.unit s.txn.fc (exceptionCode .outOfRange) s)))
  else .next (emit (addRegisters words wordCount s))

/-- READ_HOLD_REGISTER (R128). -/
def execReadHoldRegister (unit : Byte) (addr wordCount : Word) (s : State) : Host.Outcome State Fault Refusal :=
  readRegisters holdWords addr wordCount (openTxn (.readHoldRegister unit addr wordCount) s)

/-- READ_INPUT_REGISTER (R129). -/
def execReadInputRegister (unit : Byte) (addr wordCount : Word) (s : State) : Host.Outcome State Fault Refusal :=
  readRegisters inputWords addr wordCount (openTxn (.readInputRegister unit addr wordCount) s)

/-- WRITE_HOLD_REGISTER (R131): only address 0, the value clamped into `DUTY` (R140), the response the echo of
`REQ[0..5]` with the value as received. -/
def execWriteHoldRegister (unit : Byte) (addr value : Word) (s : State) : Host.Outcome State Fault Refusal :=
  let s := openTxn (.writeHoldRegister unit addr value) s
  if addr ≠ 0#16 then raise .outOfRange s
  else .next ({ s with duty := clampDuty value } |> setTrig |> addRun (s.txn.req.take 6) |> emit)

end Sys2Proof.Machine
end

