-- ==== Sys2Proof/Machine/Unsupported.lean ====
section
/-! DEFINITION. Function codes with no handler (spec/30_encoding.md R77). -/

namespace Sys2Proof.Machine

/-- A function code with no handler: the outcome that `P_UNSUPPORTED_FC` selects, and no other change (R77). -/
def execUnsupported (unit fc : Byte) (s : State) : Host.Outcome State Fault Refusal :=
  let s := openTxn (.unsupported unit fc) s
  match s.params.unsupportedFc with
  | .noHandler => .next (emitReply .noHandler s)
  | .illegalFunction => .next (emit (setError s.txn.unit s.txn.fc illegalFunctionCode s))

end Sys2Proof.Machine
end

