-- ==== Sys2Proof/Machine/Dispatch.lean ====
section
/-! DEFINITION. The meaning of each request (spec/30_encoding.md R76). -/

namespace Sys2Proof.Machine

/-- The handler of each decoded request. -/
def exec (i : Instr) (s : State) : Host.Outcome State Fault Refusal :=
  match i with
  | .readCoil unit start count => Sys2Proof.Machine.execReadCoil unit start count s
  | .readHoldRegister unit addr wordCount => Sys2Proof.Machine.execReadHoldRegister unit addr wordCount s
  | .readInputRegister unit addr wordCount => Sys2Proof.Machine.execReadInputRegister unit addr wordCount s
  | .writeCoil unit coilIndex onOffCode => Sys2Proof.Machine.execWriteCoil unit coilIndex onOffCode s
  | .writeHoldRegister unit addr value => Sys2Proof.Machine.execWriteHoldRegister unit addr value s
  | .writeMultCoils unit start count byteCount packed => Sys2Proof.Machine.execWriteMultCoils unit start count byteCount packed s
  | .unsupported unit fc => Sys2Proof.Machine.execUnsupported unit fc s

end Sys2Proof.Machine
end

