-- ==== Sys2Proof/Machine/Ports.lean ====
section
/-! DEFINITION. The output levels, the consumer operation, reset, and the environment's changes of the input pins
(spec/43_ports.md R170 to R176, spec/70_reset_and_hazards.md R205). -/

namespace Sys2Proof.Machine

/-- `coil_out`: the levels of `COIL[0] .. COIL[N-1]` (R172). -/
def State.coilOut (s : State) : List Bool := (List.range (capacity s)).map s.coil

/-- `duty_out`: the level of `DUTY` (R172). -/
def State.dutyOut (s : State) : Byte := s.duty

/-- `trig_out`: the level of `TRIG` (R172). -/
def State.trigOut (s : State) : Bool := s.trig

/-- `TAKE_TRIGGER`: read and clear in one step (R171). -/
def takeTrigger (s : State) : State :=
  clearTrig { s with portOut := some (.taken s.trig) }

/-- `RESET` (R205): every coil 0, `DUTY <- P_DUTY_RESET`, `TRIG <- 0`; no parameter changes, no input pin changes (R37), no
response (log 18). -/
def resetBlock (s : State) : State :=
  clearTrig { s with cb := [], duty := s.params.dutyReset, portOut := none }

/-- The sampling loop drives `dist_in` (R173, R176). -/
def driveDist (d : Word) (s : State) : State := { s with distIn := some d }

/-- The random source supplies the next values of `rand_in` (R174, R176). -/
def driveRand (draws : List Config.RandDraw) (s : State) : State := { s with randIn := s.randIn ++ draws }

/-- The storage sets the level of `sfault_in` (R175, R176). -/
def driveSfault (b : Bool) (s : State) : State := { s with sfaultIn := b }

end Sys2Proof.Machine
end

