-- ==== Sys2Proof/Machine/Sequencer.lean ====
section
/-! DEFINITION. One operation at a time, each to completion, in the order presented (spec/20_memory.md R58). -/

namespace Sys2Proof.Machine

/-- The frame of every transaction (spec/42_function_codes.md R125): decode, select the handler, run it to its outcome. A
request outside the length contract has the outcome `Refused` (R79, log 21). -/
def transaction (req : List Byte) (s : State) : Host.Outcome State Fault Refusal :=
  match decode req with
  | .request i => exec i s
  | .reject _ => .next (emitRefused s)

/-- One operation, or one change of an input pin between operations (R170, R176). -/
def perform (op : Operation) (s : State) : Host.Outcome State Fault Refusal :=
  match op with
  | .request body => transaction body s
  | .takeTrigger => .next (takeTrigger s)
  | .reset => .next (resetBlock s)
  | .driveDist d => .next (driveDist d s)
  | .driveRand draws => .next (driveRand draws s)
  | .driveSfault b => .next (driveSfault b s)

/-- The oldest pending operation is performed. With nothing pending MBCS is idle and keeps its state (R195, log 15). A block
constructed with an illegal `N` has no meaning (R7, log 14). -/
def advance (s : State) : Host.Outcome State Fault Refusal :=
  if s.params.legal then
    match s.pending with
    | [] => .next s
    | op :: rest => perform op { s with pending := rest }
  else .refused .illegalCapacity

/-- `s` with the request of the table bits `w` presented as the next operation. -/
def presentTableWord (s : State) (nbits w : Nat) : State :=
  { s with pending := .request (tableWordBytes nbits w) :: s.pending }

end Sys2Proof.Machine
end

