-- ==== Sys2Proof/Machine/Step.lean ====
section
/-! DEFINITION. The step of MBCS: one atomic operation (spec/70_reset_and_hazards.md R214). -/

namespace Sys2Proof.Machine

/-- One step: one operation, from its inputs to its outcome (R58, R214). -/
def step (s : State) : Host.Outcome State Fault Refusal := advance s

/-- `s` with one request put where the next step takes it, before whatever is already pending (log 3, log 10). -/
def State.withFetchWord (s : State) (nbits w : Nat) : State := presentTableWord s nbits w

end Sys2Proof.Machine
end

