-- ==== Sys2Proof/Safety.lean ====
section
/-! DEFINITION. What a good state of MBCS is, and what its runs are, in the terms the statements use. -/

namespace Sys2Proof.Machine

/-- What holds of MBCS between any two operations: a legal capacity (R7), the coil buffer in canonical form, the pad-bit
invariant (R22: every bit that holds no coil is 0), and no transaction in progress (R31, R37). -/
structure State.Inv (s : State) : Prop where
  capacity_legal : s.params.legal = true
  buffer_canonical : s.cb.wf
  pad_bits_zero : ∀ i, s.params.capacity ≤ i → s.coil i = false
  no_transaction : s.txn = Txn.idle

/-- The states of a run: MBCS constructed with legal parameters and reset (R208), given any operations, and every state a
step reaches from there. -/
inductive Reachable : State → Prop where
  | start (p : Config.Params) (ops : List Operation) (h : p.legal = true) :
      Reachable { State.construct p with pending := ops }
  | step {s t : State} (h : Reachable s) (hs : step s = .next t) : Reachable t

/-- The function codes that write (R138): FC 0x05, FC 0x06 and FC 0x0F. -/
def writesState : Instr → Bool
  | .readCoil _ _ _ => false
  | .readHoldRegister _ _ _ => false
  | .readInputRegister _ _ _ => false
  | .writeCoil _ _ _ => true
  | .writeHoldRegister _ _ _ => true
  | .writeMultCoils _ _ _ _ _ => true
  | .unsupported _ _ => false

/-- The same request from another unit (R76, R190). -/
def fromUnit (u : Byte) : Instr → Instr
  | .readCoil _ start count => .readCoil u start count
  | .readHoldRegister _ addr wordCount => .readHoldRegister u addr wordCount
  | .readInputRegister _ addr wordCount => .readInputRegister u addr wordCount
  | .writeCoil _ coilIndex onOffCode => .writeCoil u coilIndex onOffCode
  | .writeHoldRegister _ addr value => .writeHoldRegister u addr value
  | .writeMultCoils _ start count byteCount packed => .writeMultCoils u start count byteCount packed
  | .unsupported _ fc => .unsupported u fc

/-- The same outcome with another unit identifier in byte 0. -/
def replyToUnit (u : Byte) : Reply → Reply
  | .success b => .success (u :: b.tail)
  | .exception b => .exception (u :: b.tail)
  | .noHandler => .noHandler
  | .refused => .refused

/-- The outcome is a success response. -/
def isSuccess : Reply → Bool
  | .success _ => true
  | .exception _ => false
  | .noHandler => false
  | .refused => false

/-- A run never stops at `s`: the next step has a next state. -/
def Completes (s : State) : Prop := ∃ t, step s = .next t

end Sys2Proof.Machine
end

