-- ==== Sys2Proof/Certificates/Slice0/Obligations.lean ====
section
/-! DEFINITION. The statements about MBCS. Each docstring names the rule of spec/ it formalises; OBLIGATIONS.json lists
them. In every statement about a request's next state, the record update names all that changes: every other field of the
state is as it was. -/

open Sys2Proof Sys2Proof.Machine

/-! ## Encoding and decoding -/

/-- Decoding the bytes of a well-formed request gives that request, for every value of every field (R69 to R73, R77). -/
def Obligations.DecodeOfEncodedRequest : Prop :=
  ∀ i : Instr, i.wf = true → decode (encode i) = .request i

/-- What the decoder accepts is well formed, and its encoding is the part of the request that the format has: 6 bytes,
2 for an unsupported code, and for FC 0x0F the first `7 + byte_count` bytes or as many of them as there are (R69 to R73, R77,
R79, R80). -/
def Obligations.EncodeOfDecodedRequest : Prop :=
  ∀ (req : List Byte) (i : Instr), decode req = .request i →
    i.wf = true ∧
      encode i = req.take (match i with
        | .writeMultCoils _ _ _ byteCount _ => 7 + byteCount.toNat
        | .unsupported _ _ => 2
        | _ => 6)

/-- The selection by byte 1 and the fields at their offsets: a 16-bit field at bytes `o`, `o+1` is
`REQ[o]*256 + REQ[o+1]`, `byte_count` is byte 6, the packed run starts at byte 7 (R69 to R73, R76, R81). -/
def Obligations.DecodeReadsFieldsAtTheirOffsets : Prop :=
  ∀ (u a b c d e : Byte) (tl : List Byte), ∃ x y : Word,
    x.toNat = a.toNat * 256 + b.toNat ∧ y.toNat = c.toNat * 256 + d.toNat ∧
    decode (u :: 0x01#8 :: a :: b :: c :: d :: tl) = .request (.readCoil u x y) ∧
    decode (u :: 0x03#8 :: a :: b :: c :: d :: tl) = .request (.readHoldRegister u x y) ∧
    decode (u :: 0x04#8 :: a :: b :: c :: d :: tl) = .request (.readInputRegister u x y) ∧
    decode (u :: 0x05#8 :: a :: b :: c :: d :: tl) = .request (.writeCoil u x y) ∧
    decode (u :: 0x06#8 :: a :: b :: c :: d :: tl) = .request (.writeHoldRegister u x y) ∧
    decode (u :: 0x0F#8 :: a :: b :: c :: d :: e :: tl) = .request (.writeMultCoils u x y e (tl.take e.toNat)) ∧
    ∀ fc : Byte, fc ∉ [0x01#8, 0x03#8, 0x04#8, 0x05#8, 0x06#8, 0x0F#8] →
      decode (u :: fc :: tl) = .request (.unsupported u fc)

/-- Sample requests, written out byte by byte from the formats, decode to what they stand for (R69 to R73, R77, R82). -/
def Obligations.SampleRequestsDecode : Prop :=
  decode [0x01#8, 0x01#8, 0x00#8, 0x02#8, 0x00#8, 0x0A#8] = .request (.readCoil 0x01#8 2#16 10#16) ∧
  decode [0x01#8, 0x03#8, 0x80#8, 0x01#8, 0x00#8, 0x02#8] = .request (.readHoldRegister 0x01#8 0x8001#16 2#16) ∧
  decode [0x01#8, 0x04#8, 0x00#8, 0x13#8, 0x00#8, 0x01#8] = .request (.readInputRegister 0x01#8 19#16 1#16) ∧
  decode [0x01#8, 0x05#8, 0x00#8, 0x00#8, 0xFF#8, 0x00#8] = .request (.writeCoil 0x01#8 0#16 0xFF00#16) ∧
  decode [0x01#8, 0x06#8, 0x00#8, 0x00#8, 0x01#8, 0x2C#8] = .request (.writeHoldRegister 0x01#8 0#16 300#16) ∧
  decode [0x01#8, 0x0F#8, 0x00#8, 0x02#8, 0x00#8, 0x0A#8, 0x02#8, 0xCD#8, 0x01#8] =
    .request (.writeMultCoils 0x01#8 2#16 10#16 0x02#8 [0xCD#8, 0x01#8]) ∧
  decode [0x07#8, 0x07#8] = .request (.unsupported 0x07#8 0x07#8)

/-- The cursor reads: `Req8`, `Req16` and `ReqRun` read at their offset, return the offset after what they read, and answer
nothing exactly when the read would pass the end (R110 to R115). -/
def Obligations.CursorReads : Prop :=
  ∀ (req : List Byte) (o n : Nat),
    (∀ b, req[o]? = some b → req8 req o = some (b, o + 1)) ∧
    (req8 req o = none ↔ o + 1 > req.length) ∧
    (∀ b c, req[o]? = some b → req[o + 1]? = some c →
      ∃ w : Word, req16 req o = some (w, o + 2) ∧ w.toNat = b.toNat * 256 + c.toNat) ∧
    (req16 req o = none ↔ o + 2 > req.length) ∧
    (o + n ≤ req.length → ∃ run, reqRun req o n = some (run, o + n) ∧ run.length = n ∧
      ∀ k < n, run[k]? = req[o + k]?) ∧
    (reqRun req o n = none ↔ o + n > req.length)

/-! ## A step and a transaction -/

/-- A step runs the decoded request: when the oldest pending operation is a request whose bytes decode to `i`, the step is
`exec i` on the state with that operation taken off (R58, R125). -/
def Obligations.StepRunsDecodedRequest : Prop :=
  ∀ (s : State) (body : List Byte) (rest : List Operation) (i : Instr),
    s.params.legal = true → s.pending = .request body :: rest → decode body = .request i →
      step s = exec i { s with pending := rest }

/-- A request presented as a word of the opcode table runs in the very next step (the model's numbering of the table's
bits: log 10; the model's way of presenting a request: log 3). -/
def Obligations.PresentedTableWordRunsNext : Prop :=
  ∀ (s : State) (nbits w : Nat) (i : Instr), s.params.legal = true → decodeTableWord nbits w = some i →
    step (s.withFetchWord nbits w) = exec i s

/-- The length contract, R79: a request too short for its header, its fixed fields or its packed run has the outcome
`Refused` and changes no state; bytes beyond the length the handler needs are ignored. -/
def Obligations.LengthContract : Prop :=
  ∀ s : State,
    (∀ req : List Byte, req.length < 2 →
      transaction req s = .next { s with portOut := some (.response .refused), txn := Txn.idle }) ∧
    (∀ (req : List Byte) (fc : Byte), req[1]? = some fc → fc ∈ [0x01#8, 0x03#8, 0x04#8, 0x05#8, 0x06#8] →
      req.length < 6 →
      transaction req s = .next { s with portOut := some (.response .refused), txn := Txn.idle }) ∧
    (∀ req : List Byte, req[1]? = some 0x0F#8 → req.length < 7 →
      transaction req s = .next { s with portOut := some (.response .refused), txn := Txn.idle }) ∧
    (∀ (u bc : Byte) (start count : Word) (tl : List Byte), count.toNat ≠ 0 →
      start.toNat + count.toNat ≤ s.params.capacity → bc.toNat = count.toNat / 8 + 1 → tl.length < bc.toNat →
      transaction ([u, 0x0F#8] ++ wordBytes start ++ wordBytes count ++ [bc] ++ tl) s =
        .next { s with portOut := some (.response .refused), txn := Txn.idle }) ∧
    (∀ (req extra : List Byte) (fc : Byte), req[1]? = some fc → fc ∈ [0x01#8, 0x03#8, 0x04#8, 0x05#8, 0x06#8] →
      req.length = 6 → transaction (req ++ extra) s = transaction req s) ∧
    (∀ (req extra : List Byte) (bc : Byte), req[1]? = some 0x0F#8 → req[6]? = some bc →
      req.length = 7 + bc.toNat → transaction (req ++ extra) s = transaction req s)

/-- Every decoded request, in every state, ends in exactly one outcome on the response port; no failure leaves the handler
(R133). -/
def Obligations.EveryHandlerEndsInOneOutcome : Prop :=
  (∀ (i : Instr) (s : State), ∃ (t : State) (r : Reply),
    exec i s = .next t ∧ t.portOut = some (.response r) ∧ t.txn = Txn.idle) ∧
  (∀ s : State,
    storeFailed .outOfRange s = .next { s with
      portOut := some (.response (.exception [s.txn.unit, s.txn.fc ||| 0x80#8, 0x02#8])), txn := Txn.idle } ∧
    storeFailed .storageFault s = .next { s with
      portOut := some (.response (.exception [s.txn.unit, s.txn.fc ||| 0x80#8, 0x04#8])), txn := Txn.idle })

/-- At the end of a handler the outcome is `Exception(RSP)` if the error marker is set and `Success(RSP)` otherwise, and
every request, of any bytes, gets exactly one outcome (R123). -/
def Obligations.OneOutcomePerRequest : Prop :=
  (∀ s : State, s.txn.rspErr = true →
    emit s = { s with portOut := some (.response (.exception s.txn.rsp)), txn := Txn.idle }) ∧
  (∀ s : State, s.txn.rspErr = false →
    emit s = { s with portOut := some (.response (.success s.txn.rsp)), txn := Txn.idle }) ∧
  (∀ (req : List Byte) (s : State), ∃ (t : State) (r : Reply),
    transaction req s = .next t ∧ t.portOut = some (.response r))

/-! ## The function codes -/

/-- READ_COIL, R127: the packed coils of a range inside the store, LSB first with zero pad bits, and ILLEGAL_DATA_ADDRESS for
every other range; no persistent state changes. -/
def Obligations.ReadCoilAnswersPackedCoils : Prop :=
  ∀ (unit : Byte) (start count : Word) (s : State),
    (start.toNat + count.toNat ≤ s.params.capacity → ∃ p : List Byte,
      p.length = (count.toNat + 7) / 8 ∧
      (∀ j k : Nat, k < 8 →
        (p.getD j 0#8).getLsbD k = (decide (8 * j + k < count.toNat) && s.coil (start.toNat + (8 * j + k)))) ∧
      (s.params.legal = true → (BitVec.ofNat 8 p.length).toNat = p.length) ∧
      exec (.readCoil unit start count) s = .next { s with
        portOut := some (.response (.success ([unit, 0x01#8, BitVec.ofNat 8 p.length] ++ p))), txn := Txn.idle }) ∧
    (s.params.capacity < start.toNat + count.toNat →
      exec (.readCoil unit start count) s = .next { s with
        portOut := some (.response (.exception [unit, 0x81#8, 0x02#8])), txn := Txn.idle }) ∧
    (∀ req : List Byte, req[1]? = some 0x01#8 → req.length < 6 →
      transaction req s = .next { s with portOut := some (.response .refused), txn := Txn.idle })

/-- READ_HOLD_REGISTER, R128: one sample of `DIST` repeated for every word of a range inside the view; an address error
answers ILLEGAL_DATA_ADDRESS, with the trailer of R134 under `P_REG_ERROR_TRAILER = Append`. `d` is the level on `dist_in`,
and unconstrained while it has never been driven; `n` is the model's own index of free values. -/
def Obligations.ReadHoldRegisterRepeatsOneSample : Prop :=
  ∀ (unit : Byte) (addr wordCount : Word) (s : State), ∃ (d : Word) (n : Nat),
    (∀ x, s.distIn = some x → d = x ∧ n = s.freeCount) ∧
    (addr.toNat + wordCount.toNat ≤ 20 →
      exec (.readHoldRegister unit addr wordCount) s = .next { s with
        portOut := some (.response (.success ([unit, 0x03#8, BitVec.ofNat 8 (2 * wordCount.toNat)] ++
          (List.replicate wordCount.toNat [hiByte d, loByte d]).flatten)))
        txn := Txn.idle, freeCount := n }) ∧
    (20 < addr.toNat + wordCount.toNat → s.params.regErrorTrailer = .suppress →
      exec (.readHoldRegister unit addr wordCount) s = .next { s with
        portOut := some (.response (.exception [unit, 0x83#8, 0x02#8])), txn := Txn.idle }) ∧
    (20 < addr.toNat + wordCount.toNat → s.params.regErrorTrailer = .append →
      exec (.readHoldRegister unit addr wordCount) s = .next { s with
        portOut := some (.response (.exception
          ([unit, 0x83#8, 0x02#8, unit, 0x03#8, BitVec.ofNat 8 (2 * wordCount.toNat)] ++
          (List.replicate wordCount.toNat [hiByte d, loByte d]).flatten)))
        txn := Txn.idle, freeCount := n }) ∧
    (∀ req : List Byte, req[1]? = some 0x03#8 → req.length < 6 →
      transaction req s = .next { s with portOut := some (.response .refused), txn := Txn.idle })

/-- READ_INPUT_REGISTER, R129: one fresh draw of `RAND` for every word, each in `[1, 65535]`, the supplied values first; an
address error as for READ_HOLD_REGISTER. A draw beyond the supply is constrained by the range alone; `n` is the model's own
index of free values. -/
def Obligations.ReadInputRegisterDrawsEachWord : Prop :=
  ∀ (unit : Byte) (addr wordCount : Word) (s : State), ∃ (ws : List Word) (n : Nat),
    ws.length = wordCount.toNat ∧ (∀ w ∈ ws, 1 ≤ w.toNat ∧ w.toNat ≤ 65535) ∧
    (wordCount.toNat ≤ s.randIn.length → n = s.freeCount) ∧
    (∀ (k : Nat) (r : Config.RandDraw), k < wordCount.toNat → s.randIn[k]? = some r →
      ∃ w : Word, ws[k]? = some w ∧ w.toNat = r.val + 1) ∧
    (addr.toNat + wordCount.toNat ≤ 20 →
      exec (.readInputRegister unit addr wordCount) s = .next { s with
        portOut := some (.response (.success ([unit, 0x04#8, BitVec.ofNat 8 (2 * wordCount.toNat)] ++
          ws.flatMap (fun w => [hiByte w, loByte w]))))
        txn := Txn.idle, randIn := s.randIn.drop wordCount.toNat, freeCount := n }) ∧
    (20 < addr.toNat + wordCount.toNat → s.params.regErrorTrailer = .suppress →
      exec (.readInputRegister unit addr wordCount) s = .next { s with
        portOut := some (.response (.exception [unit, 0x84#8, 0x02#8])), txn := Txn.idle }) ∧
    (20 < addr.toNat + wordCount.toNat → s.params.regErrorTrailer = .append →
      exec (.readInputRegister unit addr wordCount) s = .next { s with
        portOut := some (.response (.exception
          ([unit, 0x84#8, 0x02#8, unit, 0x04#8, BitVec.ofNat 8 (2 * wordCount.toNat)] ++
          ws.flatMap (fun w => [hiByte w, loByte w]))))
        txn := Txn.idle, randIn := s.randIn.drop wordCount.toNat, freeCount := n }) ∧
    (∀ req : List Byte, req[1]? = some 0x04#8 → req.length < 6 →
      transaction req s = .next { s with portOut := some (.response .refused), txn := Txn.idle })

/-- The model's form of `n` draws of `RAND` (log 6): the supplied values in order, then free values at successive indices,
nothing else touched. -/
def Obligations.DrawsTakeTheSupplyThenFreeValues : Prop :=
  ∀ (n : Nat) (s : State),
    drawRands n s =
      ((List.range n).map (fun k => randWord (if h : k < s.randIn.length then s.randIn[k]
          else Config.freeRand (s.freeCount + (k - s.randIn.length)))),
        { s with randIn := s.randIn.drop n, freeCount := s.freeCount + (n - s.randIn.length) })

/-- WRITE_COIL, R130: the value code first, then the index, then the storage fault; otherwise one coil is written, `TRIG` is
set and the request is echoed. Every other coil, and every other byte of the buffer, is as it was. -/
def Obligations.WriteCoilWritesOneCoil : Prop :=
  ∀ (unit : Byte) (coilIndex code : Word) (s : State),
    (code ≠ 0x0000#16 → code ≠ 0xFF00#16 →
      exec (.writeCoil unit coilIndex code) s = .next { s with
        portOut := some (.response (.exception [unit, 0x85#8, 0x03#8])), txn := Txn.idle }) ∧
    (code = 0x0000#16 ∨ code = 0xFF00#16 → s.params.capacity ≤ coilIndex.toNat →
      exec (.writeCoil unit coilIndex code) s = .next { s with
        portOut := some (.response (.exception [unit, 0x85#8, 0x02#8])), txn := Txn.idle }) ∧
    (code = 0x0000#16 ∨ code = 0xFF00#16 → coilIndex.toNat < s.params.capacity → s.sfaultIn = true →
      exec (.writeCoil unit coilIndex code) s = .next { s with
        portOut := some (.response (.exception [unit, 0x85#8, 0x04#8])), txn := Txn.idle }) ∧
    (code = 0x0000#16 ∨ code = 0xFF00#16 → coilIndex.toNat < s.params.capacity → s.sfaultIn = false → s.cb.wf →
      ∃ t : State, exec (.writeCoil unit coilIndex code) s = .next t ∧
        t.coil coilIndex.toNat = decide (code = 0xFF00#16) ∧
        (∀ j, j ≠ coilIndex.toNat → t.coil j = s.coil j) ∧
        (∀ a, a ≠ coilIndex.toNat / 8 → t.cb.read a = s.cb.read a) ∧
        t = { s with
          cb := t.cb, trig := true
          portOut := some (.response (.success
            [unit, 0x05#8, hiByte coilIndex, loByte coilIndex, hiByte code, loByte code]))
          txn := Txn.idle }) ∧
    (∀ req : List Byte, req[1]? = some 0x05#8 → req.length < 6 →
      transaction req s = .next { s with portOut := some (.response .refused), txn := Txn.idle })

/-- WRITE_HOLD_REGISTER, R131: at address 0 every value is accepted, `DUTY` becomes `min(value, 255)`, `TRIG` is set and the
request is echoed with the value as received; any other address is ILLEGAL_DATA_ADDRESS and changes nothing. -/
def Obligations.WriteHoldRegisterSetsDuty : Prop :=
  ∀ (unit : Byte) (addr value : Word) (s : State),
    (addr.toNat = 0 → ∃ d : Byte, d.toNat = min value.toNat 255 ∧
      exec (.writeHoldRegister unit addr value) s = .next { s with
        duty := d, trig := true
        portOut := some (.response (.success
          [unit, 0x06#8, hiByte addr, loByte addr, hiByte value, loByte value]))
        txn := Txn.idle }) ∧
    (addr.toNat ≠ 0 →
      exec (.writeHoldRegister unit addr value) s = .next { s with
        portOut := some (.response (.exception [unit, 0x86#8, 0x02#8])), txn := Txn.idle }) ∧
    (∀ req : List Byte, req[1]? = some 0x06#8 → req.length < 6 →
      transaction req s = .next { s with portOut := some (.response .refused), txn := Txn.idle })

/-- WRITE_MULT_COILS, R132: address and count first, then the byte count, then the length of the run, then the storage fault;
otherwise coil `start+i` becomes bit `i & 7` of packed byte `i >> 3` for each `i < count`, `TRIG` is set and the response is
the shortened acknowledgement. Every other coil, and every byte that holds none of the written ones, is as it was. -/
def Obligations.WriteMultCoilsWritesTheRange : Prop :=
  ∀ (unit : Byte) (start count : Word) (bc : Byte) (packed : List Byte) (s : State),
    (count.toNat = 0 ∨ s.params.capacity < start.toNat + count.toNat →
      exec (.writeMultCoils unit start count bc packed) s = .next { s with
        portOut := some (.response (.exception [unit, 0x8F#8, 0x02#8])), txn := Txn.idle }) ∧
    (count.toNat ≠ 0 → start.toNat + count.toNat ≤ s.params.capacity → bc.toNat ≠ count.toNat / 8 + 1 →
      exec (.writeMultCoils unit start count bc packed) s = .next { s with
        portOut := some (.response (.exception [unit, 0x8F#8, 0x03#8])), txn := Txn.idle }) ∧
    (count.toNat ≠ 0 → start.toNat + count.toNat ≤ s.params.capacity → bc.toNat = count.toNat / 8 + 1 →
      packed.length < bc.toNat →
      exec (.writeMultCoils unit start count bc packed) s = .next { s with
        portOut := some (.response .refused), txn := Txn.idle }) ∧
    (count.toNat ≠ 0 → start.toNat + count.toNat ≤ s.params.capacity → bc.toNat = count.toNat / 8 + 1 →
      bc.toNat ≤ packed.length → s.sfaultIn = true →
      exec (.writeMultCoils unit start count bc packed) s = .next { s with
        portOut := some (.response (.exception [unit, 0x8F#8, 0x04#8])), txn := Txn.idle }) ∧
    (count.toNat ≠ 0 → start.toNat + count.toNat ≤ s.params.capacity → bc.toNat = count.toNat / 8 + 1 →
      bc.toNat ≤ packed.length → s.sfaultIn = false → s.cb.wf →
      ∃ t : State, exec (.writeMultCoils unit start count bc packed) s = .next t ∧
        (∀ i < count.toNat, t.coil (start.toNat + i) = (packed.getD (i / 8) 0#8).getLsbD (i % 8)) ∧
        (∀ j, j < start.toNat ∨ start.toNat + count.toNat ≤ j → t.coil j = s.coil j) ∧
        (∀ a, 8 * a + 8 ≤ start.toNat ∨ start.toNat + count.toNat ≤ 8 * a → t.cb.read a = s.cb.read a) ∧
        t = { s with
          cb := t.cb, trig := true
          portOut := some (.response (.success
            [unit, 0x0F#8, hiByte start, loByte start, hiByte count, loByte count]))
          txn := Txn.idle }) ∧
    (∀ req : List Byte, req[1]? = some 0x0F#8 → req.length < 7 →
      transaction req s = .next { s with portOut := some (.response .refused), txn := Txn.idle })

/-- A function code with no handler, R77: the 250 codes other than the six, whatever follows them in the request; no bytes
under `NoHandler`, the ILLEGAL_FUNCTION exception under `IllegalFunction`, and no state change. -/
def Obligations.UnsupportedCodeOutcome : Prop :=
  ((List.range 256).filter
    (fun n => !([0x01, 0x03, 0x04, 0x05, 0x06, 0x0F] : List Nat).contains n)).length = 250 ∧
  ∀ (unit fc : Byte) (rest : List Byte) (s : State),
    fc ∉ [0x01#8, 0x03#8, 0x04#8, 0x05#8, 0x06#8, 0x0F#8] →
      transaction (unit :: fc :: rest) s = exec (.unsupported unit fc) s ∧
      (s.params.unsupportedFc = .noHandler →
        exec (.unsupported unit fc) s = .next { s with
          portOut := some (.response .noHandler), txn := Txn.idle }) ∧
      (s.params.unsupportedFc = .illegalFunction →
        exec (.unsupported unit fc) s = .next { s with
          portOut := some (.response (.exception [unit, fc ||| 0x80#8, 0x01#8])), txn := Txn.idle })

/-- The clamp of FC 0x06, R140. -/
def Obligations.DutyIsClamped : Prop :=
  ∀ (unit : Byte) (value : Word) (s : State), ∃ t : State,
    exec (.writeHoldRegister unit 0#16 value) s = .next t ∧ t.duty.toNat = min value.toNat 255 ∧
      (value = 300#16 → t.duty = 255#8) ∧ (value = 10#16 → t.duty = 10#8)

/-- The byte-count check of FC 0x0F (R141, which the spec marks as derived from R132 and R94): it differs from `ceil(count/8)`
exactly at the multiples of 8, always covers the bits the store reads, agrees with `ceil(count/8)` on every count in `1..N` for
`N <= 7`, is met by no 8-bit value from `count` 2040 on, and bits of the run above `count` do not matter. -/
def Obligations.ByteCountCheck : Prop :=
  (∀ count : Nat, declaredBytes count = count / 8 + 1 ∧ (count + 7) / 8 ≤ declaredBytes count ∧
    (declaredBytes count ≠ (count + 7) / 8 ↔ count % 8 = 0) ∧
    (0 < count → count ≤ 7 → declaredBytes count = (count + 7) / 8)) ∧
  (∀ (unit : Byte) (start count : Word) (bc : Byte) (packed : List Byte) (s : State),
    2040 ≤ count.toNat → start.toNat + count.toNat ≤ s.params.capacity →
      exec (.writeMultCoils unit start count bc packed) s = .next { s with
        portOut := some (.response (.exception [unit, 0x8F#8, 0x03#8])), txn := Txn.idle }) ∧
  (∀ (unit : Byte) (start count : Word) (bc : Byte) (p q : List Byte) (s : State),
    bc.toNat ≤ p.length → bc.toNat ≤ q.length → (∀ i < count.toNat, runBit p i = runBit q i) →
      exec (.writeMultCoils unit start count bc p) s = exec (.writeMultCoils unit start count bc q) s)

/-! ## The consumer, reset and the input pins -/

/-- `TAKE_TRIGGER`, R171: it returns `TRIG` and clears it in one step, and changes nothing else; when `TRIG = 0` it returns 0
and changes nothing. -/
def Obligations.TakeTriggerReadsAndClears : Prop :=
  ∀ (s : State) (rest : List Operation), s.params.legal = true → s.pending = .takeTrigger :: rest →
    step s = .next { s with trig := false, portOut := some (.taken s.trig), pending := rest } ∧
    (s.trig = false → step s = .next { s with portOut := some (.taken false), pending := rest })

/-- `RESET`: every coil 0, `DUTY = P_DUTY_RESET`, `TRIG = 0`, no parameter changed, no response (R205). The rest is the
model's choice: that the output port is cleared (log 4, log 18), that the input pins, the operations behind the reset and the
index of free values stay (log 3, log 8, log 18), and that a step with nothing behind it keeps the state (log 15). -/
def Obligations.ResetSetsResetValues : Prop :=
  ∀ (s : State) (rest : List Operation), s.params.legal = true → s.pending = .reset :: rest →
    ∃ t : State, step s = .next t ∧ (∀ i, t.coil i = false) ∧ (∀ a, t.cb.read a = 0#8) ∧
      t = { s with
        cb := t.cb, duty := s.params.dutyReset, trig := false, portOut := none, pending := rest } ∧
      (rest = [] → step t = .next t)

/-- The state after reset: every coil 0 and every byte of the buffer `0x00`, a read of the whole store all zero bits (R34);
`DUTY = P_DUTY_RESET` with default 0, and `TRIG = 0` (R35 and R36, the spec's decision D16). -/
def Obligations.StateAfterReset : Prop :=
  (∀ p : Config.Params,
    (∀ i, (State.construct p).coil i = false) ∧ (∀ a, (State.construct p).cb.read a = 0#8) ∧
    (State.construct p).duty = p.dutyReset ∧ (State.construct p).trig = false ∧
    (p.legal = true → ∀ unit : Byte, exec (.readCoil unit 0#16 (BitVec.ofNat 16 p.capacity)) (State.construct p) =
      .next { State.construct p with
        portOut := some (.response (.success ([unit, 0x01#8, BitVec.ofNat 8 ((p.capacity + 7) / 8)] ++
          List.replicate ((p.capacity + 7) / 8) 0#8)))
        txn := Txn.idle })) ∧
  State.reset.params = { capacity := 1, regErrorTrailer := .suppress, unsupportedFc := .noHandler, dutyReset := 0#8 } ∧
  State.reset.duty = 0#8

/-- With nothing pending a step keeps the state (log 15), and a block constructed with an illegal capacity is refused (log
14). Both are the model's reading of R195 and of R7 with decision D15. -/
def Obligations.IdleAndIllegalSteps : Prop :=
  (∀ s : State, s.params.legal = true → s.pending = [] → step s = .next s) ∧
  (∀ s : State, s.params.capacity = 0 ∨ 2040 < s.params.capacity → step s = .refused .illegalCapacity)

/-- A change of an input pin between operations changes that pin alone (R176; the model's form of it: log 17). -/
def Obligations.PinChangesTouchOnlyThePin : Prop :=
  ∀ (s : State) (rest : List Operation), s.params.legal = true →
    (∀ d, s.pending = .driveDist d :: rest → step s = .next { s with distIn := some d, pending := rest }) ∧
    (∀ rs, s.pending = .driveRand rs :: rest →
      step s = .next { s with randIn := s.randIn ++ rs, pending := rest }) ∧
    (∀ b, s.pending = .driveSfault b :: rest → step s = .next { s with sfaultIn := b, pending := rest })

/-- The output levels are those of `COIL`, `DUTY` and `TRIG` (R172). -/
def Obligations.OutputLevels : Prop :=
  ∀ s : State, s.coilOut.length = s.params.capacity ∧
    (∀ i < s.params.capacity, s.coilOut[i]? = some (s.coil i)) ∧ s.dutyOut = s.duty ∧ s.trigOut = s.trig

/-! ## The coil store -/

/-- `read_bit`, R91. -/
def Obligations.ReadBitAnswersTheCoil : Prop :=
  ∀ (s : State) (i : Word),
    (i.toNat < s.params.capacity → readBit s i = .done ((s.cb.read (i.toNat / 8)).getLsbD (i.toNat % 8))) ∧
    (s.params.capacity ≤ i.toNat → readBit s i = .failed .outOfRange)

/-- `read_range`, R92: `ceil(count/8)` bytes, bit `i` of the result the coil `start+i`, the bits above `count` 0;
`OutOfRange` for a range that leaves the store. -/
def Obligations.ReadRangePacksTheCoils : Prop :=
  ∀ (s : State) (start count : Word),
    (start.toNat + count.toNat ≤ s.params.capacity → ∃ p : List Byte, readRange s start count = .done p ∧
      p.length = (count.toNat + 7) / 8 ∧
      ∀ j k : Nat, k < 8 →
        (p.getD j 0#8).getLsbD k = (decide (8 * j + k < count.toNat) && s.coil (start.toNat + (8 * j + k)))) ∧
    (s.params.capacity < start.toNat + count.toNat → readRange s start count = .failed .outOfRange)

/-- `write_bit`, R93. -/
def Obligations.WriteBitWritesOneCoil : Prop :=
  ∀ (s : State) (i : Word) (v : Bool),
    (s.params.capacity ≤ i.toNat → writeBit s i v = .failed .outOfRange) ∧
    (i.toNat < s.params.capacity → s.sfaultIn = true → writeBit s i v = .failed .storageFault) ∧
    (i.toNat < s.params.capacity → s.sfaultIn = false → s.cb.wf → ∃ t : State, writeBit s i v = .done t ∧
      (∀ j, t.coil j = if j = i.toNat then v else s.coil j) ∧ t = { s with cb := t.cb })

/-- `write_range`, R94: all of the range or nothing; only the first `ceil(count/8)` bytes are read, and bits above `count` are
ignored; the pad bits stay 0. -/
def Obligations.WriteRangeWritesAllOrNothing : Prop :=
  ∀ (s : State) (start count : Word) (run : List Byte), (count.toNat + 7) / 8 ≤ run.length →
    (s.params.capacity < start.toNat + count.toNat → writeRange s start count run = .failed .outOfRange) ∧
    (start.toNat + count.toNat ≤ s.params.capacity → s.sfaultIn = true →
      writeRange s start count run = .failed .storageFault) ∧
    (start.toNat + count.toNat ≤ s.params.capacity → s.sfaultIn = false → s.cb.wf →
      ∃ t : State, writeRange s start count run = .done t ∧
        (∀ j, t.coil j = if start.toNat ≤ j ∧ j < start.toNat + count.toNat
          then (run.getD ((j - start.toNat) / 8) 0#8).getLsbD ((j - start.toNat) % 8) else s.coil j) ∧
        ((∀ j, s.params.capacity ≤ j → s.coil j = false) → ∀ j, s.params.capacity ≤ j → t.coil j = false) ∧
        t = { s with cb := t.cb }) ∧
    writeRange s start count (run.take ((count.toNat + 7) / 8)) = writeRange s start count run

/-- The round-trip law (R95, which the spec marks as derived from R92 and R94): a read of a range just written returns the
canonical form of the written bytes, which is the bytes themselves when they are canonical. -/
def Obligations.ReadAfterWriteReturnsCanonicalBytes : Prop :=
  ∀ (s t : State) (start count : Word) (run : List Byte), s.cb.wf →
    start.toNat + count.toNat ≤ s.params.capacity → writeRange s start count run = .done t →
    ∃ p : List Byte, readRange t start count = .done p ∧ p.length = (count.toNat + 7) / 8 ∧
      (∀ j k : Nat, k < 8 →
        (p.getD j 0#8).getLsbD k = (decide (8 * j + k < count.toNat) && (run.getD j 0#8).getLsbD k)) ∧
      (run.length = (count.toNat + 7) / 8 →
        (∀ j k : Nat, k < 8 → count.toNat ≤ 8 * j + k → (run.getD j 0#8).getLsbD k = false) → p = run)

/-- The out-of-range law (R96, which the spec marks as derived from R91 to R94). -/
def Obligations.OutOfRangeAccessesFail : Prop :=
  ∀ s : State,
    (∀ (i : Word) (v : Bool), s.params.capacity ≤ i.toNat →
      readBit s i = .failed .outOfRange ∧ writeBit s i v = .failed .outOfRange) ∧
    (∀ (start count : Word) (run : List Byte), s.params.capacity < start.toNat + count.toNat →
      readRange s start count = .failed .outOfRange ∧ writeRange s start count run = .failed .outOfRange)

/-- The order of failures inside a write primitive, R99: the storage fault counts only for a write whose range is valid. -/
def Obligations.RangeIsCheckedBeforeStorageFault : Prop :=
  ∀ (s : State) (i count : Word) (v b : Bool) (run : List Byte),
    (s.params.capacity ≤ i.toNat → writeBit { s with sfaultIn := b } i v = .failed .outOfRange) ∧
    (i.toNat < s.params.capacity → writeBit { s with sfaultIn := true } i v = .failed .storageFault) ∧
    (s.params.capacity < i.toNat + count.toNat →
      writeRange { s with sfaultIn := b } i count run = .failed .outOfRange) ∧
    (i.toNat + count.toNat ≤ s.params.capacity →
      writeRange { s with sfaultIn := true } i count run = .failed .storageFault)

/-! ## The response encoder and the exceptions -/

/-- `Add8`, `Add16` and `AddRun` append to the response and change nothing else, R117 to R119. -/
def Obligations.EncoderAppends : Prop :=
  ∀ (s : State) (v : Byte) (w : Word) (run : List Byte),
    add8 v s = { s with txn := { s.txn with rsp := s.txn.rsp ++ [v] } } ∧
    (∃ hi lo : Byte, w.toNat = hi.toNat * 256 + lo.toNat ∧
      add16 w s = { s with txn := { s.txn with rsp := s.txn.rsp ++ [hi, lo] } }) ∧
    addRun run s = { s with txn := { s.txn with rsp := s.txn.rsp ++ run } }

/-- `SetError` discards what was buffered and writes the exception shape, and an `add` after it appends after the three bytes
and leaves the error marker set, R120 and R122. -/
def Obligations.SetErrorDiscardsAndAddsFollow : Prop :=
  ∀ (s : State) (unit fc code v : Byte) (w : Word) (run : List Byte),
    setError unit fc code s =
      { s with txn := { s.txn with rsp := [unit, fc ||| 0x80#8, code], rspErr := true } } ∧
    (0x80 ≤ fc.toNat → fc ||| 0x80#8 = fc) ∧
    add8 v (setError unit fc code s) =
      { s with txn := { s.txn with rsp := [unit, fc ||| 0x80#8, code, v], rspErr := true } } ∧
    add16 w (setError unit fc code s) =
      { s with txn := { s.txn with
        rsp := [unit, fc ||| 0x80#8, code, hiByte w, loByte w], rspErr := true } } ∧
    addRun run (setError unit fc code s) =
      { s with txn := { s.txn with rsp := [unit, fc ||| 0x80#8, code] ++ run, rspErr := true } }

/-- Each error kind has its exception code, R181, and taking the exception answers it and changes nothing else (R186). -/
def Obligations.ErrorKindsTranslateToCodes : Prop :=
  ∀ (k : ErrorKind) (s : State), ∃ c : Byte,
    (k = .outOfRange → c = 0x02#8) ∧ (k = .badByteCount → c = 0x03#8) ∧ (k = .badValue → c = 0x03#8) ∧
    (k = .storageFault → c = 0x04#8) ∧
    raise k s = .next { s with
      portOut := some (.response (.exception [s.txn.unit, s.txn.fc ||| 0x80#8, c])), txn := Txn.idle }

/-- The shapes of a response, R66, R74, R75, R182: a success echoes the unit and the function code; an exception begins with
the unit, the function code with bit 7 set and a code of 1 to 4, and is exactly these three bytes but for the trailer of
R134. -/
def Obligations.ResponseShapes : Prop :=
  ∀ (i : Instr) (s t : State), exec i s = .next t →
    (∀ b, t.portOut = some (.response (.success b)) → b.take 2 = [i.unit, i.fc]) ∧
    (∀ b, t.portOut = some (.response (.exception b)) → ∃ c : Byte, 1 ≤ c.toNat ∧ c.toNat ≤ 4 ∧
      b.take 3 = [i.unit, i.fc ||| 0x80#8, c] ∧ (s.params.regErrorTrailer = .suppress → b.length = 3))

/-! ## Rules of the whole machine -/

/-- The invariant holds of MBCS right after reset, with any legal parameters and with the defaults. -/
def Obligations.ResetStateHasInvariant : Prop :=
  (∀ p : Config.Params, p.legal = true → (State.construct p).Inv) ∧ State.reset.Inv

/-- Every step keeps the invariant: legal parameters, the canonical coil buffer, the pad bits 0 (R22), and no transaction
left over (R31, R37). -/
def Obligations.StepKeepsInvariant : Prop :=
  ∀ s t : State, s.Inv → step s = .next t → t.Inv

/-- A run never stops: every state reached from a legal construction, whatever operations are presented, has the invariant
and a next state (R58, R133, R186). -/
def Obligations.EveryRunCompletes : Prop :=
  ∀ s : State, Reachable s → s.Inv ∧ Completes s

/-- From every state with the invariant, reached by a run or not and with any operations pending, the step has a next state,
and that state has the invariant (R58, R133, R186). -/
def Obligations.StepCompletesWithInvariant : Prop :=
  ∀ s : State, s.Inv → ∃ t, step s = .next t ∧ t.Inv

/-- Every outcome other than `Success` leaves `COIL`, `DUTY` and `TRIG` exactly as they were (R137, R186, R189). -/
def Obligations.OnlySuccessChangesState : Prop :=
  ∀ (i : Instr) (s t : State) (r : Reply), exec i s = .next t → t.portOut = some (.response r) → isSuccess r = false →
    t.cb = s.cb ∧ t.duty = s.duty ∧ t.trig = s.trig

/-- `TRIG`, R27: every successful FC 0x05, 0x06 or 0x0F sets it, whatever it was; every other transaction leaves it; only
`TAKE_TRIGGER` and reset clear it; and no function code reads it. -/
def Obligations.TriggerFlagRules : Prop :=
  (∀ (i : Instr) (s t : State) (r : Reply), exec i s = .next t → t.portOut = some (.response r) →
    t.trig = (s.trig || (isSuccess r && writesState i))) ∧
  (∀ (req : List Byte) (e : DecodeReject) (s t : State), decode req = .reject e → transaction req s = .next t →
    t.trig = s.trig) ∧
  (∀ s t : State, step s = .next t → s.trig = true → t.trig = false →
    ∃ rest, s.pending = .takeTrigger :: rest ∨ s.pending = .reset :: rest) ∧
  (∀ (s : State) (rest : List Operation), s.params.legal = true →
    s.pending = .takeTrigger :: rest ∨ s.pending = .reset :: rest → ∃ t, step s = .next t ∧ t.trig = false) ∧
  (∀ (i : Instr) (s t : State) (b : Bool), exec i s = .next t →
    ∃ b', exec i { s with trig := b } = .next { t with trig := b' })

/-- `DUTY` (R25, R26, R33): a step that changes it is a reset or a write of holding address 0, which stores the clamped
value; and no function code reads it. -/
def Obligations.OnlyHoldingAddressZeroWritesDuty : Prop :=
  (∀ s t : State, step s = .next t → t.duty ≠ s.duty → ∃ rest,
    (s.pending = .reset :: rest ∧ t.duty = s.params.dutyReset) ∨
    ∃ body unit value, s.pending = .request body :: rest ∧
      decode body = .request (.writeHoldRegister unit 0#16 value) ∧ t.duty.toNat = min value.toNat 255) ∧
  (∀ (i : Instr) (s t : State) (d : Byte), exec i s = .next t →
    ∃ d', exec i { s with duty := d } = .next { t with duty := d' })

/-- `COIL` (R24, R33): a step that changes the coil buffer is a reset, or a successful FC 0x05 or FC 0x0F. -/
def Obligations.OnlyCoilWritesChangeCoils : Prop :=
  ∀ s t : State, step s = .next t → t.cb ≠ s.cb → ∃ rest,
    s.pending = .reset :: rest ∨
    ∃ body i b, s.pending = .request body :: rest ∧ decode body = .request i ∧
      (i.fc = 0x05#8 ∨ i.fc = 0x0F#8) ∧ t.portOut = some (.response (.success b))

/-- No step changes a parameter (R23, R205), and each step takes exactly the oldest pending operation (R58). -/
def Obligations.ParametersAndOrderAreKept : Prop :=
  ∀ s t : State, step s = .next t → t.params = s.params ∧ t.pending = s.pending.tail

/-- The unit identifier takes no part in what a request does: the same request from another unit has the same effect and the
same response but for the echoed unit in byte 0 (R76, R190; under `Append` the trailer of R134 echoes it again, so the
default `Suppress` is a premise). -/
def Obligations.UnitIsOnlyEchoed : Prop :=
  ∀ (i : Instr) (u : Byte) (s t : State) (r : Reply), s.params.regErrorTrailer = .suppress →
    exec i s = .next t → t.portOut = some (.response r) →
      exec (fromUnit u i) s = .next { t with portOut := some (.response (replyToUnit u r)) }

/-- A successful write repeated on the state it left has the same outcome and changes nothing (R55). -/
def Obligations.RepeatedWriteChangesNothing : Prop :=
  ∀ (i : Instr) (s t : State) (b : List Byte), s.cb.wf → writesState i = true → exec i s = .next t →
    t.portOut = some (.response (.success b)) → exec i t = .next t
end

