-- ==== Sys2Proof/Laws/Codec.lean ====
section
/-! SUPPORT. The codec's primitives: byte order, cursor reads, the encoder's appends. -/

namespace Sys2Proof

/-- A big-endian field is `hi * 256 + lo` (R52). -/
theorem wordOfBytes_toNat (hi lo : Byte) : (wordOfBytes hi lo).toNat = hi.toNat * 256 + lo.toNat := by
  unfold wordOfBytes
  rw [BitVec.toNat_append, ← Nat.shiftLeft_add_eq_or_of_lt lo.isLt, Nat.shiftLeft_eq]

@[simp] theorem hiByte_toNat (v : Word) : (hiByte v).toNat = v.toNat / 256 := by
  have := v.isLt
  simp only [hiByte, BitVec.extractLsb'_toNat, Nat.shiftRight_eq_div_pow]
  omega

@[simp] theorem loByte_toNat (v : Word) : (loByte v).toNat = v.toNat % 256 := by
  simp [loByte, BitVec.extractLsb'_toNat]

@[simp] theorem hiByte_wordOfBytes (hi lo : Byte) : hiByte (wordOfBytes hi lo) = hi := by
  apply BitVec.eq_of_toNat_eq
  have := lo.isLt
  rw [hiByte_toNat, wordOfBytes_toNat]
  omega

@[simp] theorem loByte_wordOfBytes (hi lo : Byte) : loByte (wordOfBytes hi lo) = lo := by
  apply BitVec.eq_of_toNat_eq
  have := lo.isLt
  rw [loByte_toNat, wordOfBytes_toNat]
  omega

@[simp] theorem wordOfBytes_hi_lo (v : Word) : wordOfBytes (hiByte v) (loByte v) = v := by
  apply BitVec.eq_of_toNat_eq
  rw [wordOfBytes_toNat, hiByte_toNat, loByte_toNat]
  omega

/-- `get(2, a:16, b:16)` on a request of six bytes or more (R114). -/
theorem getTwoWords_cons (u f a b c d : Byte) (tl : List Byte) :
    getTwoWords (u :: f :: a :: b :: c :: d :: tl) 2 = some (wordOfBytes a b, wordOfBytes c d, 6) := rfl

/-- `get(2, a:16, b:16, c:8)` on a request of seven bytes or more (R114). -/
theorem getTwoWordsByte_cons (u f a b c d e : Byte) (tl : List Byte) :
    getTwoWordsByte (u :: f :: a :: b :: c :: d :: e :: tl) 2 =
      some (wordOfBytes a b, wordOfBytes c d, e, 7) := rfl

/-- A cursor read of a run answers exactly when the bytes are there (R113, R115). -/
theorem reqRun_cases (req : List Byte) (o n : Nat) :
    (req.length < o + n ∧ reqRun req o n = none) ∨
      (o + n ≤ req.length ∧ reqRun req o n = some ((req.drop o).take n, o + n)) := by
  unfold reqRun
  split
  · exact .inl ⟨by omega, rfl⟩
  · exact .inr ⟨by omega, rfl⟩

namespace Machine

/-- What `Add16` of each word in order appends. -/
theorem addWords_eq (ws : List Word) (s : State) : addWords ws s = addRun (ws.flatMap wordBytes) s := by
  induction ws generalizing s with
  | nil => simp [addWords, addRun]
  | cons w ws ih => simp [addWords, ih, addRun, add16, List.append_assoc]

/-- Everything that taking an exception does (R186): the exception response, and no other change of the state. -/
theorem raise_eq (k : ErrorKind) (s : State) :
    raise k s = .next { s with
      portOut := some (.response (.exception [s.txn.unit, s.txn.fc ||| 0x80#8, exceptionCode k]))
      txn := Txn.idle } := rfl

/-- Taking an exception in the handler of the request `i`. -/
theorem raise_openTxn (k : ErrorKind) (i : Instr) (s : State) :
    raise k (openTxn i s) = .next { s with
      portOut := some (.response (.exception [i.unit, i.fc ||| 0x80#8, exceptionCode k]))
      txn := Txn.idle } := rfl

/-- Everything that a store failure becomes at the handler boundary (R181; log 13 for the last). -/
theorem storeFailed_cases (f : StoreFailure) (s : State) :
    (f = .outOfRange ∧ storeFailed f s = raise .outOfRange s) ∨
      (f = .storageFault ∧ storeFailed f s = raise .storageFault s) ∨
      (f = .packedRunTooShort ∧ storeFailed f s = .refused .packedRunTooShort) := by
  cases f <;> simp [storeFailed]

end Machine

end Sys2Proof
end

