-- ==== Sys2Proof/Laws/Memory.lean ====
section
/-! SUPPORT. The coil buffer: every operation keeps the canonical form, a write is seen where it was made and nowhere else,
and what packing and unpacking coils do bit by bit. -/

namespace Sys2Proof.Machine

/-! ## Bytes -/

@[simp] theorem Memory.read_nil (a : Nat) : Memory.read [] a = 0#8 := rfl

theorem Memory.wf_nil : Memory.wf [] := by simp [Memory.wf]

theorem Memory.wf_tail {c : Host.Cell} {m : Memory} (h : Memory.wf (c :: m)) : Memory.wf m := by
  obtain ⟨hp, hz⟩ := h
  exact ⟨(List.pairwise_cons.1 hp).2, fun d hd => hz d (List.mem_cons_of_mem c hd)⟩

/-- Below its first entry a canonical buffer reads as `0x00`. -/
theorem Memory.read_below {m : Memory} {a : Nat} (h : ∀ c ∈ m, a < c.1) : m.read a = 0#8 := by
  induction m with
  | nil => rfl
  | cons c m ih =>
    have hc := h c (by simp)
    simp only [Memory.read]
    rw [if_neg (by omega)]
    exact ih fun d hd => h d (List.mem_cons_of_mem c hd)

/-- Every entry of a written buffer is the new one or was there before. -/
theorem Memory.mem_write {m : Memory} {a : Nat} {v : Byte} {c : Host.Cell} (h : c ∈ m.write a v) :
    (c = (a, v) ∧ v ≠ 0#8) ∨ c ∈ m := by
  induction m with
  | nil =>
    simp only [Memory.write] at h
    split at h <;> simp_all
  | cons d m ih =>
    simp only [Memory.write] at h
    split at h
    · split at h
      · exact .inr h
      · rcases List.mem_cons.1 h with h | h
        · exact .inl ⟨h, ‹_›⟩
        · exact .inr h
    · split at h
      · split at h
        · exact .inr (List.mem_cons_of_mem d h)
        · rcases List.mem_cons.1 h with h | h
          · exact .inl ⟨h, ‹_›⟩
          · exact .inr (List.mem_cons_of_mem d h)
      · rcases List.mem_cons.1 h with h | h
        · exact .inr (by simp [h])
        · exact (ih h).imp id (List.mem_cons_of_mem d)

/-- A write keeps the canonical form. -/
theorem Memory.wf_write {m : Memory} (h : m.wf) (a : Nat) (v : Byte) : (m.write a v).wf := by
  refine ⟨?_, fun c hc => ?_⟩
  · induction m with
    | nil => simp only [Memory.write]; split <;> simp
    | cons d m ih =>
      have hp := List.pairwise_cons.1 h.1
      simp only [Memory.write]
      split
      · split
        · exact h.1
        · refine List.pairwise_cons.2 ⟨fun c hc => ?_, h.1⟩
          rcases List.mem_cons.1 hc with hc | hc
          · subst hc; assumption
          · exact Nat.lt_trans ‹_› (hp.1 c hc)
      · split
        · rename_i heq
          split
          · exact hp.2
          · exact List.pairwise_cons.2 ⟨fun c hc => heq ▸ hp.1 c hc, hp.2⟩
        · refine List.pairwise_cons.2 ⟨fun c hc => ?_, ih (Memory.wf_tail h)⟩
          rcases Memory.mem_write hc with ⟨rfl, -⟩ | hc
          · simp only; omega
          · exact hp.1 c hc
  · rcases Memory.mem_write hc with ⟨rfl, hv⟩ | hc
    · exact hv
    · exact h.2 c hc

/-- A read of the written index gives the written byte. -/
theorem Memory.read_write_same {m : Memory} (h : m.wf) (a : Nat) (v : Byte) : (m.write a v).read a = v := by
  induction m with
  | nil => simp only [Memory.write]; split <;> simp_all [Memory.read]
  | cons d m ih =>
    have hp := List.pairwise_cons.1 h.1
    simp only [Memory.write]
    split
    · split
      · rename_i hlt hv
        rw [hv]
        refine Memory.read_below fun c hc => ?_
        rcases List.mem_cons.1 hc with hc | hc
        · subst hc; exact hlt
        · exact Nat.lt_trans hlt (hp.1 c hc)
      · simp [Memory.read]
    · split
      · rename_i heq
        split
        · rename_i hv
          rw [hv]
          exact Memory.read_below fun c hc => heq ▸ hp.1 c hc
        · simp [Memory.read]
      · rename_i hne
        simp only [Memory.read]
        rw [if_neg hne]
        exact ih (Memory.wf_tail h)

/-- A read of any other index gives what it gave before. -/
theorem Memory.read_write_other (m : Memory) {a b : Nat} (v : Byte) (hne : b ≠ a) : (m.write a v).read b = m.read b := by
  induction m with
  | nil => simp only [Memory.write]; split <;> simp [Memory.read, Ne.symm hne]
  | cons d m ih =>
    simp only [Memory.write]
    split
    · split
      · rfl
      · simp [Memory.read, Ne.symm hne]
    · split
      · rename_i heq
        have hd : d.1 ≠ b := by omega
        split <;> simp [Memory.read, Ne.symm hne, hd]
      · simp only [Memory.read, ih]

/-! ## Bits -/

theorem setBit_getLsbD (b : Byte) {k : Nat} (hk : k < 8) (v : Bool) (j : Nat) :
    (setBit b k v).getLsbD j = if j = k then v else b.getLsbD j := by
  unfold setBit
  by_cases hj : j = k
  · subst hj; cases v <;> simp [hk]
  · have h1 : (1#8 <<< k).getLsbD j = false := by
      simp only [BitVec.getLsbD_shiftLeft, BitVec.getLsbD_one]
      simp only [Bool.and_eq_false_imp, Bool.and_eq_true, decide_eq_true_eq, Bool.not_eq_true', decide_eq_false_iff_not]
      intro h; omega
    cases v <;> simp only [Bool.false_eq_true, if_false, if_true, BitVec.getLsbD_or, BitVec.getLsbD_and,
      BitVec.getLsbD_not, h1, hj, Bool.or_false, Bool.not_false, Bool.and_true]
    by_cases h8 : j < 8
    · simp [h8]
    · simp [BitVec.getLsbD_of_ge b j (by omega)]

/-- The packing loop after `n` of its steps. -/
theorem packLoop_getLsbD (f : Nat → Bool) (n : Nat) (hn : n ≤ 8) (k : Nat) :
    ((List.range n).foldl (fun b k => if f k then b ||| (1#8 <<< k) else b) 0#8).getLsbD k =
      (decide (k < n) && f k) := by
  induction n with
  | zero => simp
  | succ n ih =>
    have ih := ih (by omega)
    rw [List.range_succ, List.foldl_append]
    simp only [List.foldl_cons, List.foldl_nil]
    by_cases hf : f n
    · have h := setBit_getLsbD ((List.range n).foldl (fun b k => if f k then b ||| (1#8 <<< k) else b) 0#8)
        (show n < 8 by omega) true k
      simp only [setBit, if_true] at h
      rw [if_pos hf, h, ih]
      by_cases hk : k = n
      · simp [hk, hf]
      · simp [hk, show k < n + 1 ↔ k < n by omega]
    · rw [if_neg hf, ih]
      by_cases hk : k = n
      · simp [hk, hf]
      · simp [show k < n + 1 ↔ k < n by omega]

theorem packByte_getLsbD (f : Nat → Bool) {k : Nat} (hk : k < 8) : (packByte f).getLsbD k = f k := by
  rw [packByte, packLoop_getLsbD f 8 (Nat.le_refl 8)]
  simp [hk]

/-! ## Coils -/

theorem Memory.wf_setCoil {m : Memory} (h : m.wf) (i : Nat) (v : Bool) : (m.setCoil i v).wf := Memory.wf_write h _ _

/-- What one coil write does to every bit of the buffer. -/
theorem Memory.coil_setCoil {m : Memory} (h : m.wf) (i : Nat) (v : Bool) (j : Nat) :
    (m.setCoil i v).coil j = if j = i then v else m.coil j := by
  unfold Memory.coil Memory.setCoil
  by_cases hb : j / 8 = i / 8
  · rw [hb, Memory.read_write_same h, setBit_getLsbD _ (Nat.mod_lt _ (by decide))]
    have : j % 8 = i % 8 ↔ j = i := by omega
    simp [this]
  · rw [Memory.read_write_other _ _ hb, if_neg (by intro hji; exact hb (by rw [hji]))]

theorem Memory.read_setCoil_other (m : Memory) (i : Nat) (v : Bool) {a : Nat} (ha : a ≠ i / 8) :
    (m.setCoil i v).read a = m.read a := Memory.read_write_other _ _ ha

theorem Memory.wf_unpackCoils {m : Memory} (h : m.wf) (start : Nat) (run : List Byte) (n : Nat) :
    (m.unpackCoils start run n).wf := by
  induction n with
  | zero => exact h
  | succ n ih => exact Memory.wf_setCoil ih _ _

/-- What a range write does to every bit of the buffer. -/
theorem Memory.coil_unpackCoils {m : Memory} (h : m.wf) (start : Nat) (run : List Byte) (n j : Nat) :
    (m.unpackCoils start run n).coil j = if start ≤ j ∧ j < start + n then runBit run (j - start) else m.coil j := by
  induction n with
  | zero => rw [if_neg (by omega)]; rfl
  | succ n ih =>
    simp only [Memory.unpackCoils]
    rw [Memory.coil_setCoil (Memory.wf_unpackCoils h _ _ _), ih]
    by_cases hj : j = start + n
    · subst hj; simp
    · rw [if_neg hj]
      by_cases h' : start ≤ j ∧ j < start + n
      · rw [if_pos h', if_pos ⟨h'.1, by omega⟩]
      · rw [if_neg h', if_neg (by omega)]

/-- A byte that holds none of the range's coils is as it was. -/
theorem Memory.read_unpackCoils_other (m : Memory) (start : Nat) (run : List Byte) (n : Nat) {a : Nat}
    (ha : 8 * a + 8 ≤ start ∨ start + n ≤ 8 * a) : (m.unpackCoils start run n).read a = m.read a := by
  induction n with
  | zero => rfl
  | succ n ih =>
    simp only [Memory.unpackCoils]
    rw [Memory.read_setCoil_other _ _ _ (by omega), ih (by omega)]

@[simp] theorem Memory.packCoils_length (m : Memory) (start count : Nat) :
    (m.packCoils start count).length = ceilDiv8 count := by simp [Memory.packCoils]

/-- Bit `k` of packed byte `j` is coil `start + 8j + k`, and 0 above `count`. -/
theorem Memory.packCoils_bit (m : Memory) (start count j k : Nat) (hk : k < 8) :
    ((m.packCoils start count).getD j 0#8).getLsbD k =
      (decide (8 * j + k < count) && m.coil (start + (8 * j + k))) := by
  by_cases hj : j < ceilDiv8 count
  · have : (m.packCoils start count).getD j 0#8 =
        packByte fun k => decide (8 * j + k < count) && m.coil (start + 8 * j + k) := by
      simp [Memory.packCoils, List.getD_eq_getElem?_getD, hj]
    rw [this, packByte_getLsbD _ hk, Nat.add_assoc]
  · have h0 : (m.packCoils start count).getD j 0#8 = 0#8 := by
      rw [List.getD_eq_getElem?_getD, List.getElem?_eq_none (by simpa using hj)]; rfl
    have hc : ¬ 8 * j + k < count := by unfold ceilDiv8 at hj; omega
    rw [h0]
    simp [hc]

end Sys2Proof.Machine
end

