-- ==== Sys2Proof/Laws/PerInstr.lean ====
section
/-! SUPPORT. Facts about every request as syntax, one lemma per constructor of `Instr`. -/

namespace Sys2Proof.Laws

/-- The bytes of a request begin with its unit identifier and function code (R65), and hold all its fixed fields (R69 to
R73). -/
def EncodesHeader.Statement (i : Instr) : Prop :=
  (encode i).take 2 = [i.unit, i.fc] ∧ i.fixedLength ≤ (encode i).length

theorem EncodesHeader.readCoil (unit : Byte) (start count : Word) :
    EncodesHeader.Statement (.readCoil unit start count) := ⟨rfl, Nat.le_refl 6⟩

theorem EncodesHeader.readHoldRegister (unit : Byte) (addr wordCount : Word) :
    EncodesHeader.Statement (.readHoldRegister unit addr wordCount) := ⟨rfl, Nat.le_refl 6⟩

theorem EncodesHeader.readInputRegister (unit : Byte) (addr wordCount : Word) :
    EncodesHeader.Statement (.readInputRegister unit addr wordCount) := ⟨rfl, Nat.le_refl 6⟩

theorem EncodesHeader.writeCoil (unit : Byte) (coilIndex onOffCode : Word) :
    EncodesHeader.Statement (.writeCoil unit coilIndex onOffCode) := ⟨rfl, Nat.le_refl 6⟩

theorem EncodesHeader.writeHoldRegister (unit : Byte) (addr value : Word) :
    EncodesHeader.Statement (.writeHoldRegister unit addr value) := ⟨rfl, Nat.le_refl 6⟩

theorem EncodesHeader.writeMultCoils (unit : Byte) (start count : Word) (byteCount : Byte) (packed : List Byte) :
    EncodesHeader.Statement (.writeMultCoils unit start count byteCount packed) :=
  ⟨rfl, by simp [Instr.fixedLength, encode, wordBytes]⟩

theorem EncodesHeader.unsupported (unit fc : Byte) :
    EncodesHeader.Statement (.unsupported unit fc) := ⟨rfl, Nat.le_refl 2⟩

end Sys2Proof.Laws
end

