-- ==== Sys2Proof/Laws/State.lean ====
section
/-! SUPPORT. One lemma per field per update of the state, so that no proof unfolds a record update. -/

namespace Sys2Proof.Machine

@[simp] theorem setTrig_params (s : State) : (setTrig s).params = s.params := rfl
@[simp] theorem setTrig_cb (s : State) : (setTrig s).cb = s.cb := rfl
@[simp] theorem setTrig_duty (s : State) : (setTrig s).duty = s.duty := rfl
@[simp] theorem setTrig_trig (s : State) : (setTrig s).trig = true := rfl
@[simp] theorem setTrig_txn (s : State) : (setTrig s).txn = s.txn := rfl
@[simp] theorem setTrig_portOut (s : State) : (setTrig s).portOut = s.portOut := rfl
@[simp] theorem setTrig_pending (s : State) : (setTrig s).pending = s.pending := rfl
@[simp] theorem setTrig_distIn (s : State) : (setTrig s).distIn = s.distIn := rfl
@[simp] theorem setTrig_randIn (s : State) : (setTrig s).randIn = s.randIn := rfl
@[simp] theorem setTrig_sfaultIn (s : State) : (setTrig s).sfaultIn = s.sfaultIn := rfl
@[simp] theorem setTrig_freeCount (s : State) : (setTrig s).freeCount = s.freeCount := rfl

@[simp] theorem clearTrig_params (s : State) : (clearTrig s).params = s.params := rfl
@[simp] theorem clearTrig_cb (s : State) : (clearTrig s).cb = s.cb := rfl
@[simp] theorem clearTrig_duty (s : State) : (clearTrig s).duty = s.duty := rfl
@[simp] theorem clearTrig_trig (s : State) : (clearTrig s).trig = false := rfl
@[simp] theorem clearTrig_txn (s : State) : (clearTrig s).txn = s.txn := rfl
@[simp] theorem clearTrig_portOut (s : State) : (clearTrig s).portOut = s.portOut := rfl
@[simp] theorem clearTrig_pending (s : State) : (clearTrig s).pending = s.pending := rfl
@[simp] theorem clearTrig_distIn (s : State) : (clearTrig s).distIn = s.distIn := rfl
@[simp] theorem clearTrig_randIn (s : State) : (clearTrig s).randIn = s.randIn := rfl
@[simp] theorem clearTrig_sfaultIn (s : State) : (clearTrig s).sfaultIn = s.sfaultIn := rfl
@[simp] theorem clearTrig_freeCount (s : State) : (clearTrig s).freeCount = s.freeCount := rfl

@[simp] theorem add8_params (v : Byte) (s : State) : (add8 v s).params = s.params := rfl
@[simp] theorem add8_cb (v : Byte) (s : State) : (add8 v s).cb = s.cb := rfl
@[simp] theorem add8_duty (v : Byte) (s : State) : (add8 v s).duty = s.duty := rfl
@[simp] theorem add8_trig (v : Byte) (s : State) : (add8 v s).trig = s.trig := rfl
@[simp] theorem add8_txn (v : Byte) (s : State) : (add8 v s).txn = { s.txn with rsp := s.txn.rsp ++ [v] } := rfl
@[simp] theorem add8_portOut (v : Byte) (s : State) : (add8 v s).portOut = s.portOut := rfl
@[simp] theorem add8_pending (v : Byte) (s : State) : (add8 v s).pending = s.pending := rfl
@[simp] theorem add8_distIn (v : Byte) (s : State) : (add8 v s).distIn = s.distIn := rfl
@[simp] theorem add8_randIn (v : Byte) (s : State) : (add8 v s).randIn = s.randIn := rfl
@[simp] theorem add8_sfaultIn (v : Byte) (s : State) : (add8 v s).sfaultIn = s.sfaultIn := rfl
@[simp] theorem add8_freeCount (v : Byte) (s : State) : (add8 v s).freeCount = s.freeCount := rfl

@[simp] theorem add16_params (v : Word) (s : State) : (add16 v s).params = s.params := rfl
@[simp] theorem add16_cb (v : Word) (s : State) : (add16 v s).cb = s.cb := rfl
@[simp] theorem add16_duty (v : Word) (s : State) : (add16 v s).duty = s.duty := rfl
@[simp] theorem add16_trig (v : Word) (s : State) : (add16 v s).trig = s.trig := rfl
@[simp] theorem add16_txn (v : Word) (s : State) : (add16 v s).txn = { s.txn with rsp := s.txn.rsp ++ wordBytes v } := rfl
@[simp] theorem add16_portOut (v : Word) (s : State) : (add16 v s).portOut = s.portOut := rfl
@[simp] theorem add16_pending (v : Word) (s : State) : (add16 v s).pending = s.pending := rfl
@[simp] theorem add16_distIn (v : Word) (s : State) : (add16 v s).distIn = s.distIn := rfl
@[simp] theorem add16_randIn (v : Word) (s : State) : (add16 v s).randIn = s.randIn := rfl
@[simp] theorem add16_sfaultIn (v : Word) (s : State) : (add16 v s).sfaultIn = s.sfaultIn := rfl
@[simp] theorem add16_freeCount (v : Word) (s : State) : (add16 v s).freeCount = s.freeCount := rfl

@[simp] theorem addRun_params (run : List Byte) (s : State) : (addRun run s).params = s.params := rfl
@[simp] theorem addRun_cb (run : List Byte) (s : State) : (addRun run s).cb = s.cb := rfl
@[simp] theorem addRun_duty (run : List Byte) (s : State) : (addRun run s).duty = s.duty := rfl
@[simp] theorem addRun_trig (run : List Byte) (s : State) : (addRun run s).trig = s.trig := rfl
@[simp] theorem addRun_txn (run : List Byte) (s : State) : (addRun run s).txn = { s.txn with rsp := s.txn.rsp ++ run } := rfl
@[simp] theorem addRun_portOut (run : List Byte) (s : State) : (addRun run s).portOut = s.portOut := rfl
@[simp] theorem addRun_pending (run : List Byte) (s : State) : (addRun run s).pending = s.pending := rfl
@[simp] theorem addRun_distIn (run : List Byte) (s : State) : (addRun run s).distIn = s.distIn := rfl
@[simp] theorem addRun_randIn (run : List Byte) (s : State) : (addRun run s).randIn = s.randIn := rfl
@[simp] theorem addRun_sfaultIn (run : List Byte) (s : State) : (addRun run s).sfaultIn = s.sfaultIn := rfl
@[simp] theorem addRun_freeCount (run : List Byte) (s : State) : (addRun run s).freeCount = s.freeCount := rfl

@[simp] theorem setError_params (unit fc code : Byte) (s : State) : (setError unit fc code s).params = s.params := rfl
@[simp] theorem setError_cb (unit fc code : Byte) (s : State) : (setError unit fc code s).cb = s.cb := rfl
@[simp] theorem setError_duty (unit fc code : Byte) (s : State) : (setError unit fc code s).duty = s.duty := rfl
@[simp] theorem setError_trig (unit fc code : Byte) (s : State) : (setError unit fc code s).trig = s.trig := rfl
@[simp] theorem setError_txn (unit fc code : Byte) (s : State) : (setError unit fc code s).txn = { s.txn with rsp := [unit, fc ||| 0x80#8, code], rspErr := true } := rfl
@[simp] theorem setError_portOut (unit fc code : Byte) (s : State) : (setError unit fc code s).portOut = s.portOut := rfl
@[simp] theorem setError_pending (unit fc code : Byte) (s : State) : (setError unit fc code s).pending = s.pending := rfl
@[simp] theorem setError_distIn (unit fc code : Byte) (s : State) : (setError unit fc code s).distIn = s.distIn := rfl
@[simp] theorem setError_randIn (unit fc code : Byte) (s : State) : (setError unit fc code s).randIn = s.randIn := rfl
@[simp] theorem setError_sfaultIn (unit fc code : Byte) (s : State) : (setError unit fc code s).sfaultIn = s.sfaultIn := rfl
@[simp] theorem setError_freeCount (unit fc code : Byte) (s : State) : (setError unit fc code s).freeCount = s.freeCount := rfl

@[simp] theorem emitReply_params (r : Reply) (s : State) : (emitReply r s).params = s.params := rfl
@[simp] theorem emitReply_cb (r : Reply) (s : State) : (emitReply r s).cb = s.cb := rfl
@[simp] theorem emitReply_duty (r : Reply) (s : State) : (emitReply r s).duty = s.duty := rfl
@[simp] theorem emitReply_trig (r : Reply) (s : State) : (emitReply r s).trig = s.trig := rfl
@[simp] theorem emitReply_txn (r : Reply) (s : State) : (emitReply r s).txn = Txn.idle := rfl
@[simp] theorem emitReply_portOut (r : Reply) (s : State) : (emitReply r s).portOut = some (.response r) := rfl
@[simp] theorem emitReply_pending (r : Reply) (s : State) : (emitReply r s).pending = s.pending := rfl
@[simp] theorem emitReply_distIn (r : Reply) (s : State) : (emitReply r s).distIn = s.distIn := rfl
@[simp] theorem emitReply_randIn (r : Reply) (s : State) : (emitReply r s).randIn = s.randIn := rfl
@[simp] theorem emitReply_sfaultIn (r : Reply) (s : State) : (emitReply r s).sfaultIn = s.sfaultIn := rfl
@[simp] theorem emitReply_freeCount (r : Reply) (s : State) : (emitReply r s).freeCount = s.freeCount := rfl

@[simp] theorem emit_params (s : State) : (emit s).params = s.params := rfl
@[simp] theorem emit_cb (s : State) : (emit s).cb = s.cb := rfl
@[simp] theorem emit_duty (s : State) : (emit s).duty = s.duty := rfl
@[simp] theorem emit_trig (s : State) : (emit s).trig = s.trig := rfl
@[simp] theorem emit_txn (s : State) : (emit s).txn = Txn.idle := rfl
@[simp] theorem emit_portOut (s : State) : (emit s).portOut = some (.response (if s.txn.rspErr then .exception s.txn.rsp else .success s.txn.rsp)) := rfl
@[simp] theorem emit_pending (s : State) : (emit s).pending = s.pending := rfl
@[simp] theorem emit_distIn (s : State) : (emit s).distIn = s.distIn := rfl
@[simp] theorem emit_randIn (s : State) : (emit s).randIn = s.randIn := rfl
@[simp] theorem emit_sfaultIn (s : State) : (emit s).sfaultIn = s.sfaultIn := rfl
@[simp] theorem emit_freeCount (s : State) : (emit s).freeCount = s.freeCount := rfl

@[simp] theorem emitRefused_params (s : State) : (emitRefused s).params = s.params := rfl
@[simp] theorem emitRefused_cb (s : State) : (emitRefused s).cb = s.cb := rfl
@[simp] theorem emitRefused_duty (s : State) : (emitRefused s).duty = s.duty := rfl
@[simp] theorem emitRefused_trig (s : State) : (emitRefused s).trig = s.trig := rfl
@[simp] theorem emitRefused_txn (s : State) : (emitRefused s).txn = Txn.idle := rfl
@[simp] theorem emitRefused_portOut (s : State) : (emitRefused s).portOut = some (.response .refused) := rfl
@[simp] theorem emitRefused_pending (s : State) : (emitRefused s).pending = s.pending := rfl
@[simp] theorem emitRefused_distIn (s : State) : (emitRefused s).distIn = s.distIn := rfl
@[simp] theorem emitRefused_randIn (s : State) : (emitRefused s).randIn = s.randIn := rfl
@[simp] theorem emitRefused_sfaultIn (s : State) : (emitRefused s).sfaultIn = s.sfaultIn := rfl
@[simp] theorem emitRefused_freeCount (s : State) : (emitRefused s).freeCount = s.freeCount := rfl

@[simp] theorem takeTrigger_params (s : State) : (takeTrigger s).params = s.params := rfl
@[simp] theorem takeTrigger_cb (s : State) : (takeTrigger s).cb = s.cb := rfl
@[simp] theorem takeTrigger_duty (s : State) : (takeTrigger s).duty = s.duty := rfl
@[simp] theorem takeTrigger_trig (s : State) : (takeTrigger s).trig = false := rfl
@[simp] theorem takeTrigger_txn (s : State) : (takeTrigger s).txn = s.txn := rfl
@[simp] theorem takeTrigger_portOut (s : State) : (takeTrigger s).portOut = some (.taken s.trig) := rfl
@[simp] theorem takeTrigger_pending (s : State) : (takeTrigger s).pending = s.pending := rfl
@[simp] theorem takeTrigger_distIn (s : State) : (takeTrigger s).distIn = s.distIn := rfl
@[simp] theorem takeTrigger_randIn (s : State) : (takeTrigger s).randIn = s.randIn := rfl
@[simp] theorem takeTrigger_sfaultIn (s : State) : (takeTrigger s).sfaultIn = s.sfaultIn := rfl
@[simp] theorem takeTrigger_freeCount (s : State) : (takeTrigger s).freeCount = s.freeCount := rfl

@[simp] theorem resetBlock_params (s : State) : (resetBlock s).params = s.params := rfl
@[simp] theorem resetBlock_cb (s : State) : (resetBlock s).cb = [] := rfl
@[simp] theorem resetBlock_duty (s : State) : (resetBlock s).duty = s.params.dutyReset := rfl
@[simp] theorem resetBlock_trig (s : State) : (resetBlock s).trig = false := rfl
@[simp] theorem resetBlock_txn (s : State) : (resetBlock s).txn = s.txn := rfl
@[simp] theorem resetBlock_portOut (s : State) : (resetBlock s).portOut = none := rfl
@[simp] theorem resetBlock_pending (s : State) : (resetBlock s).pending = s.pending := rfl
@[simp] theorem resetBlock_distIn (s : State) : (resetBlock s).distIn = s.distIn := rfl
@[simp] theorem resetBlock_randIn (s : State) : (resetBlock s).randIn = s.randIn := rfl
@[simp] theorem resetBlock_sfaultIn (s : State) : (resetBlock s).sfaultIn = s.sfaultIn := rfl
@[simp] theorem resetBlock_freeCount (s : State) : (resetBlock s).freeCount = s.freeCount := rfl

@[simp] theorem driveDist_params (d : Word) (s : State) : (driveDist d s).params = s.params := rfl
@[simp] theorem driveDist_cb (d : Word) (s : State) : (driveDist d s).cb = s.cb := rfl
@[simp] theorem driveDist_duty (d : Word) (s : State) : (driveDist d s).duty = s.duty := rfl
@[simp] theorem driveDist_trig (d : Word) (s : State) : (driveDist d s).trig = s.trig := rfl
@[simp] theorem driveDist_txn (d : Word) (s : State) : (driveDist d s).txn = s.txn := rfl
@[simp] theorem driveDist_portOut (d : Word) (s : State) : (driveDist d s).portOut = s.portOut := rfl
@[simp] theorem driveDist_pending (d : Word) (s : State) : (driveDist d s).pending = s.pending := rfl
@[simp] theorem driveDist_distIn (d : Word) (s : State) : (driveDist d s).distIn = some d := rfl
@[simp] theorem driveDist_randIn (d : Word) (s : State) : (driveDist d s).randIn = s.randIn := rfl
@[simp] theorem driveDist_sfaultIn (d : Word) (s : State) : (driveDist d s).sfaultIn = s.sfaultIn := rfl
@[simp] theorem driveDist_freeCount (d : Word) (s : State) : (driveDist d s).freeCount = s.freeCount := rfl

@[simp] theorem driveRand_params (draws : List Config.RandDraw) (s : State) : (driveRand draws s).params = s.params := rfl
@[simp] theorem driveRand_cb (draws : List Config.RandDraw) (s : State) : (driveRand draws s).cb = s.cb := rfl
@[simp] theorem driveRand_duty (draws : List Config.RandDraw) (s : State) : (driveRand draws s).duty = s.duty := rfl
@[simp] theorem driveRand_trig (draws : List Config.RandDraw) (s : State) : (driveRand draws s).trig = s.trig := rfl
@[simp] theorem driveRand_txn (draws : List Config.RandDraw) (s : State) : (driveRand draws s).txn = s.txn := rfl
@[simp] theorem driveRand_portOut (draws : List Config.RandDraw) (s : State) : (driveRand draws s).portOut = s.portOut := rfl
@[simp] theorem driveRand_pending (draws : List Config.RandDraw) (s : State) : (driveRand draws s).pending = s.pending := rfl
@[simp] theorem driveRand_distIn (draws : List Config.RandDraw) (s : State) : (driveRand draws s).distIn = s.distIn := rfl
@[simp] theorem driveRand_randIn (draws : List Config.RandDraw) (s : State) : (driveRand draws s).randIn = s.randIn ++ draws := rfl
@[simp] theorem driveRand_sfaultIn (draws : List Config.RandDraw) (s : State) : (driveRand draws s).sfaultIn = s.sfaultIn := rfl
@[simp] theorem driveRand_freeCount (draws : List Config.RandDraw) (s : State) : (driveRand draws s).freeCount = s.freeCount := rfl

@[simp] theorem driveSfault_params (b : Bool) (s : State) : (driveSfault b s).params = s.params := rfl
@[simp] theorem driveSfault_cb (b : Bool) (s : State) : (driveSfault b s).cb = s.cb := rfl
@[simp] theorem driveSfault_duty (b : Bool) (s : State) : (driveSfault b s).duty = s.duty := rfl
@[simp] theorem driveSfault_trig (b : Bool) (s : State) : (driveSfault b s).trig = s.trig := rfl
@[simp] theorem driveSfault_txn (b : Bool) (s : State) : (driveSfault b s).txn = s.txn := rfl
@[simp] theorem driveSfault_portOut (b : Bool) (s : State) : (driveSfault b s).portOut = s.portOut := rfl
@[simp] theorem driveSfault_pending (b : Bool) (s : State) : (driveSfault b s).pending = s.pending := rfl
@[simp] theorem driveSfault_distIn (b : Bool) (s : State) : (driveSfault b s).distIn = s.distIn := rfl
@[simp] theorem driveSfault_randIn (b : Bool) (s : State) : (driveSfault b s).randIn = s.randIn := rfl
@[simp] theorem driveSfault_sfaultIn (b : Bool) (s : State) : (driveSfault b s).sfaultIn = b := rfl
@[simp] theorem driveSfault_freeCount (b : Bool) (s : State) : (driveSfault b s).freeCount = s.freeCount := rfl

@[simp] theorem openTxn_params (i : Instr) (s : State) : (openTxn i s).params = s.params := rfl
@[simp] theorem openTxn_cb (i : Instr) (s : State) : (openTxn i s).cb = s.cb := rfl
@[simp] theorem openTxn_duty (i : Instr) (s : State) : (openTxn i s).duty = s.duty := rfl
@[simp] theorem openTxn_trig (i : Instr) (s : State) : (openTxn i s).trig = s.trig := rfl
@[simp] theorem openTxn_portOut (i : Instr) (s : State) : (openTxn i s).portOut = s.portOut := rfl
@[simp] theorem openTxn_pending (i : Instr) (s : State) : (openTxn i s).pending = s.pending := rfl
@[simp] theorem openTxn_distIn (i : Instr) (s : State) : (openTxn i s).distIn = s.distIn := rfl
@[simp] theorem openTxn_randIn (i : Instr) (s : State) : (openTxn i s).randIn = s.randIn := rfl
@[simp] theorem openTxn_sfaultIn (i : Instr) (s : State) : (openTxn i s).sfaultIn = s.sfaultIn := rfl
@[simp] theorem openTxn_freeCount (i : Instr) (s : State) : (openTxn i s).freeCount = s.freeCount := rfl
@[simp] theorem openTxn_txn_req (i : Instr) (s : State) : (openTxn i s).txn.req = encode i := rfl
@[simp] theorem openTxn_txn_off (i : Instr) (s : State) : (openTxn i s).txn.off = i.fixedLength := rfl
@[simp] theorem openTxn_txn_unit (i : Instr) (s : State) : (openTxn i s).txn.unit = i.unit := rfl
@[simp] theorem openTxn_txn_fc (i : Instr) (s : State) : (openTxn i s).txn.fc = i.fc := rfl
@[simp] theorem openTxn_txn_fields (i : Instr) (s : State) : (openTxn i s).txn.fields = some i := rfl
@[simp] theorem openTxn_txn_rsp (i : Instr) (s : State) : (openTxn i s).txn.rsp = [] := rfl
@[simp] theorem openTxn_txn_rspErr (i : Instr) (s : State) : (openTxn i s).txn.rspErr = false := rfl

end Sys2Proof.Machine
end

