-- ==== Sys2Proof/Laws/Store.lean ====
section
/-! SUPPORT. Once for each store primitive and each external input, everything it can do. -/

namespace Sys2Proof.Machine

/-- The legal parameters are those with `1 <= N <= 2040` (R7). -/
theorem params_legal_iff (p : Config.Params) : p.legal = true ↔ 1 ≤ p.capacity ∧ p.capacity ≤ 2040 := by
  rw [Config.Params.legal, Bool.and_eq_true, decide_eq_true_eq, decide_eq_true_eq]

/-- `read_bit` fails exactly outside `[0, N)` and otherwise answers the coil (R91). -/
theorem readBit_cases (s : State) (i : Word) :
    (s.params.capacity ≤ i.toNat ∧ readBit s i = .failed .outOfRange) ∨
      (i.toNat < s.params.capacity ∧ readBit s i = .done (s.coil i.toNat)) := by
  unfold readBit capacity
  split
  · exact .inl ⟨by omega, rfl⟩
  · exact .inr ⟨by omega, rfl⟩

/-- `read_range` fails exactly on a range that leaves `[0, N)` (R92). -/
theorem readRange_cases (s : State) (start count : Word) :
    (s.params.capacity < start.toNat + count.toNat ∧ readRange s start count = .failed .outOfRange) ∨
      (start.toNat + count.toNat ≤ s.params.capacity ∧
        readRange s start count = .done (s.cb.packCoils start.toNat count.toNat)) := by
  unfold readRange capacity
  split
  · exact .inl ⟨by omega, rfl⟩
  · exact .inr ⟨by omega, rfl⟩

/-- `write_bit` fails with the range, then with the storage, and otherwise writes one coil (R93, R99). -/
theorem writeBit_cases (s : State) (i : Word) (v : Bool) :
    (s.params.capacity ≤ i.toNat ∧ writeBit s i v = .failed .outOfRange) ∨
      (i.toNat < s.params.capacity ∧ s.sfaultIn = true ∧ writeBit s i v = .failed .storageFault) ∨
      (i.toNat < s.params.capacity ∧ s.sfaultIn = false ∧
        writeBit s i v = .done { s with cb := s.cb.setCoil i.toNat v }) := by
  unfold writeBit capacity drawSfault
  split
  · exact .inl ⟨by omega, rfl⟩
  · cases h : s.sfaultIn
    · exact .inr (.inr ⟨by omega, rfl, rfl⟩)
    · exact .inr (.inl ⟨by omega, rfl, rfl⟩)

/-- `write_range` fails with the range, then with the storage, then refuses a run that is too short, and otherwise writes
all of its coils (R94, R99). -/
theorem writeRange_cases (s : State) (start count : Word) (run : List Byte) :
    (s.params.capacity < start.toNat + count.toNat ∧ writeRange s start count run = .failed .outOfRange) ∨
      (start.toNat + count.toNat ≤ s.params.capacity ∧ s.sfaultIn = true ∧
        writeRange s start count run = .failed .storageFault) ∨
      (start.toNat + count.toNat ≤ s.params.capacity ∧ s.sfaultIn = false ∧ run.length < ceilDiv8 count.toNat ∧
        writeRange s start count run = .failed .packedRunTooShort) ∨
      (start.toNat + count.toNat ≤ s.params.capacity ∧ s.sfaultIn = false ∧ ceilDiv8 count.toNat ≤ run.length ∧
        writeRange s start count run = .done { s with cb := s.cb.unpackCoils start.toNat run count.toNat }) := by
  unfold writeRange capacity drawSfault
  split
  · exact .inl ⟨by omega, rfl⟩
  · cases h : s.sfaultIn
    · simp only [Bool.false_eq_true, if_false]
      split
      · exact .inr (.inr (.inl ⟨by omega, trivial, ‹_›, rfl⟩))
      · exact .inr (.inr (.inr ⟨by omega, trivial, by omega, rfl⟩))
    · exact .inr (.inl ⟨by omega, rfl, by simp⟩)

/-- A sample of `DIST` is the driven level, or a free value and the next index (R173, log 5). -/
theorem drawDist_cases (s : State) :
    (∃ d, s.distIn = some d ∧ drawDist s = (d, s)) ∨
      (s.distIn = none ∧ drawDist s = (Config.freeDist s.freeCount, { s with freeCount := s.freeCount + 1 })) := by
  unfold drawDist
  cases h : s.distIn with
  | none => exact .inr ⟨rfl, rfl⟩
  | some d => exact .inl ⟨d, rfl, rfl⟩

/-- A draw of `RAND` takes the next supplied value, or a free value and the next index (R174, log 6). -/
theorem drawRand_cases (s : State) :
    (∃ r rest, s.randIn = r :: rest ∧ drawRand s = (randWord r, { s with randIn := rest })) ∨
      (s.randIn = [] ∧ drawRand s = (randWord (Config.freeRand s.freeCount), { s with freeCount := s.freeCount + 1 })) := by
  unfold drawRand
  cases h : s.randIn with
  | nil => exact .inr ⟨rfl, rfl⟩
  | cons r rest => exact .inl ⟨r, rest, rfl, rfl⟩

/-- A word of the random source is never 0 (R174). -/
theorem randWord_toNat (r : Config.RandDraw) : (randWord r).toNat = r.val + 1 := by
  unfold randWord
  rw [BitVec.toNat_ofNat, Nat.mod_eq_of_lt]
  have := r.isLt
  omega

/-- Draws touch nothing but the supply and the index of the next free value. -/
theorem drawRands_frame (n : Nat) (s : State) :
    (drawRands n s).2 = { s with randIn := s.randIn.drop n, freeCount := s.freeCount + (n - s.randIn.length) } ∧
      (drawRands n s).1.length = n := by
  induction n generalizing s with
  | zero => exact ⟨by simp [drawRands], rfl⟩
  | succ n ih =>
    obtain ⟨r, rest, hr, hd⟩ | ⟨hr, hd⟩ := drawRand_cases s
    · obtain ⟨h2, h1⟩ := ih { s with randIn := rest }
      refine ⟨?_, by simp [drawRands, hd, h1]⟩
      simp only [drawRands, hd, h2, hr, List.drop_succ_cons, List.length_cons, Nat.add_sub_add_right]
    · obtain ⟨h2, h1⟩ := ih { s with freeCount := s.freeCount + 1 }
      refine ⟨?_, by simp [drawRands, hd, h1]⟩
      simp only [drawRands, hd]
      rw [h2]
      simp only [hr, List.drop_nil, List.length_nil, Nat.sub_zero, State.mk.injEq, true_and]
      omega

end Sys2Proof.Machine
end

