-- ==== Sys2Proof/Tests/Slice0.lean ====
section
/-! SUPPORT. Tests on fixed values, their results taken from spec/95_test_vectors.md (the vector's number stands in the
docstring) or worked out from the rule named there; and, for each statement that has hypotheses, concrete values that meet
them, at the boundaries where its clauses meet. -/

namespace Sys2Proof.Tests

open Sys2Proof Sys2Proof.Machine

/-! ## Helpers -/

/-- The block after reset with `N = n` and the other parameters at their defaults. -/
def block (n : Nat) : State := State.construct { capacity := n }

/-- `N = 16` with `CB = [34 07]`, the start state of most vectors of section 2 and 5. -/
def stored : State := { block 16 with cb := [(0, 0x34#8), (1, 0x07#8)] }

/-- The block with `N = 1` and `P_REG_ERROR_TRAILER = Append`. -/
def appending : State := State.construct { regErrorTrailer := .append }

/-- The block with `N = 1` and `P_UNSUPPORTED_FC = IllegalFunction`. -/
def strict : State := State.construct { unsupportedFc := .illegalFunction }

/-- `s` with `TRIG = 1` and `DUTY = 77`. -/
def triggered (s : State) : State := { s with trig := true, duty := 77#8 }

/-- The next state of an outcome, if it has one. -/
def nextOf : Host.Outcome State Fault Refusal → Option State
  | .next t => some t
  | .fault _ => none
  | .refused _ => none

theorem next_of_nextOf {o : Host.Outcome State Fault Refusal} {t : State} (h : nextOf o = some t) : o = .next t := by
  cases o <;> simp_all [nextOf]

/-- The reply of an outcome's next state. -/
def replyOf (o : Host.Outcome State Fault Refusal) : Option Reply :=
  match nextOf o with
  | some { portOut := some (.response r), .. } => some r
  | _ => none

/-- The reply, the first two bytes of the coil buffer, `DUTY` and `TRIG` of an outcome's next state. -/
def look (o : Host.Outcome State Fault Refusal) : Option (Option Reply × Byte × Byte × Byte × Bool) :=
  (nextOf o).map fun t => (replyOf o, t.cb.read 0, t.cb.read 1, t.duty, t.trig)

/-! ## Well-formedness: one ill-formed request for each check -/

/-- An unsupported code is none of the six supported ones (R77). -/
theorem test_wf_refuses_supported_code : (Instr.unsupported 0x01#8 0x05#8).wf = false := by decide

/-- A packed run is no longer than its declared length (R73). -/
theorem test_wf_refuses_long_run :
    (Instr.writeMultCoils 0x01#8 0#16 1#16 0x01#8 [0x01#8, 0x00#8]).wf = false := by decide

/-! ## Decoding: a word for every constructor, written out from its format (R69 to R73, R77, R82) -/

/-- R69; bytes of vector 1.3c. -/
theorem test_decode_readCoil :
    decode [0x01#8, 0x01#8, 0x00#8, 0x00#8, 0x07#8, 0xF8#8] = .request (.readCoil 0x01#8 0#16 2040#16) := by decide

/-- R70; bytes of vector 3.6: the address is unsigned. -/
theorem test_decode_readHoldRegister :
    decode [0x01#8, 0x03#8, 0x80#8, 0x01#8, 0x00#8, 0x02#8] =
      .request (.readHoldRegister 0x01#8 0x8001#16 2#16) := by decide

/-- R70; bytes of vector 4.19. -/
theorem test_decode_readInputRegister :
    decode [0x01#8, 0x04#8, 0x00#8, 0x0A#8, 0x00#8, 0x0B#8] =
      .request (.readInputRegister 0x01#8 10#16 11#16) := by decide

/-- R71; bytes of vector 1.4b. -/
theorem test_decode_writeCoil :
    decode [0x01#8, 0x05#8, 0x00#8, 0x01#8, 0x00#8, 0xFF#8] = .request (.writeCoil 0x01#8 1#16 0x00FF#16) := by decide

/-- R72; bytes of vector 1.6a. -/
theorem test_decode_writeHoldRegister :
    decode [0x01#8, 0x06#8, 0x00#8, 0x00#8, 0x01#8, 0x2C#8] = .request (.writeHoldRegister 0x01#8 0#16 300#16) := by decide

/-- R73; bytes of vector 5.15, with two bytes beyond the run, which are ignored (R79). -/
theorem test_decode_writeMultCoils :
    decode [0x01#8, 0x0F#8, 0x00#8, 0x02#8, 0x00#8, 0x0A#8, 0x02#8, 0xCD#8, 0x01#8, 0xAA#8, 0xBB#8] =
      .request (.writeMultCoils 0x01#8 2#16 10#16 0x02#8 [0xCD#8, 0x01#8]) := by decide

/-- R77; bytes of vectors 6.3 and 6.2. -/
theorem test_decode_unsupported :
    decode [0x01#8, 0x00#8] = .request (.unsupported 0x01#8 0x00#8) ∧
    decode [0x01#8, 0x10#8, 0x00#8, 0x00#8, 0x00#8, 0x01#8, 0x02#8, 0x00#8, 0x05#8] =
      .request (.unsupported 0x01#8 0x10#8) := by decide

/-- R79: what holds no request. -/
theorem test_decode_rejects :
    decode [] = .reject .noFunctionCode ∧ decode [0x01#8] = .reject .noFunctionCode ∧
    decode [0x01#8, 0x03#8, 0x00#8, 0x00#8] = .reject .fieldsMissing ∧
    decode [0x01#8, 0x0F#8, 0x00#8, 0x00#8, 0x00#8, 0x04#8] = .reject .fieldsMissing := by decide

/-- The rows of the opcode table, by the byte that they match. -/
theorem test_table_words :
    decodeTableWord 8 0x01 = some (.readCoil 0#8 0#16 0#16) ∧
    decodeTableWord 8 0x03 = some (.readHoldRegister 0#8 0#16 0#16) ∧
    decodeTableWord 8 0x04 = some (.readInputRegister 0#8 0#16 0#16) ∧
    decodeTableWord 8 0x05 = some (.writeCoil 0#8 0#16 0#16) ∧
    decodeTableWord 8 0x06 = some (.writeHoldRegister 0#8 0#16 0#16) ∧
    decodeTableWord 8 0x0F = some (.writeMultCoils 0#8 0#16 0#16 0#8 []) ∧
    decodeTableWord 8 0x00 = some (.unsupported 0#8 0x00#8) := by decide

/-- A table word runs as the first operation after reset: FC 0x06 with zero operands writes `DUTY` and sets `TRIG`
(R131). -/
theorem test_first_operation_after_reset :
    look (step (State.reset.withFetchWord 8 0x06)) =
      some (some (.success [0x00#8, 0x06#8, 0x00#8, 0x00#8, 0x00#8, 0x00#8]), 0#8, 0#8, 0#8, true) := by decide

/-! ## One transaction -/

/-- The coils of vector 2.10 in a response; and, as in vector 4.5, a sum that would wrap in 16 bits is out of range (R10). -/
theorem test_readCoil :
    look (transaction [0x01#8, 0x01#8, 0x00#8, 0x04#8, 0x00#8, 0x09#8] stored) =
      some (some (.success [0x01#8, 0x01#8, 0x02#8, 0x73#8, 0x00#8]), 0x34#8, 0x07#8, 0#8, false) ∧
    replyOf (exec (.readCoil 0x01#8 0xFFFF#16 2#16) stored) = some (.exception [0x01#8, 0x81#8, 0x02#8]) := by decide

/-- Vector 1.7a: one sample, repeated. -/
theorem test_readHoldRegister :
    replyOf (transaction [0x01#8, 0x03#8, 0x00#8, 0x00#8, 0x00#8, 0x03#8] { block 1 with distIn := some 150#16 }) =
      some (.success [0x01#8, 0x03#8, 0x06#8, 0x00#8, 0x96#8, 0x00#8, 0x96#8, 0x00#8, 0x96#8]) := by decide

/-- Vector 4.21: the trailer under `Append`. -/
theorem test_readHoldRegister_trailer :
    replyOf (transaction [0x01#8, 0x03#8, 0x00#8, 0x12#8, 0x00#8, 0x03#8] { appending with distIn := some 0x0096#16 }) =
      some (.exception [0x01#8, 0x83#8, 0x02#8, 0x01#8, 0x03#8, 0x06#8, 0x00#8, 0x96#8, 0x00#8, 0x96#8, 0x00#8, 0x96#8]) := by
  decide

/-- As vectors 4.16 and 4.17: two words, two draws, in order (R129); the third supplied value stays. -/
theorem test_readInputRegister :
    (nextOf (transaction [0x01#8, 0x04#8, 0x00#8, 0x12#8, 0x00#8, 0x02#8] { block 1 with randIn := [0xBEEE, 0, 65534] })).map
        (fun t => (t.portOut, t.randIn)) =
      some (some (.response (.success [0x01#8, 0x04#8, 0x04#8, 0xBE#8, 0xEF#8, 0x00#8, 0x01#8])), [65534]) := by decide

/-- Vector 4.22: the trailer under `Append` draws its words afresh. -/
theorem test_readInputRegister_trailer :
    replyOf (transaction [0x01#8, 0x04#8, 0x00#8, 0x14#8, 0x00#8, 0x01#8] { appending with randIn := [0x0101] }) =
      some (.exception [0x01#8, 0x84#8, 0x02#8, 0x01#8, 0x04#8, 0x02#8, 0x01#8, 0x02#8]) := by decide

/-- Vector 1.8a; and clearing coil 4 of `[34 07]`, which leaves `[24 07]` (R93, R51). -/
theorem test_writeCoil :
    look (transaction [0x01#8, 0x05#8, 0x00#8, 0x00#8, 0xFF#8, 0x00#8] (block 1)) =
      some (some (.success [0x01#8, 0x05#8, 0x00#8, 0x00#8, 0xFF#8, 0x00#8]), 0x01#8, 0#8, 0#8, true) ∧
    look (exec (.writeCoil 0x01#8 4#16 0x0000#16) stored) =
      some (some (.success [0x01#8, 0x05#8, 0x00#8, 0x04#8, 0x00#8, 0x00#8]), 0x24#8, 0x07#8, 0#8, true) := by decide

/-- Vectors 1.4c, 5.4, 5.5, 5.6 and 5.3: the order of the checks. -/
theorem test_writeCoil_checks :
    look (exec (.writeCoil 0x01#8 5#16 0xFFFF#16) (block 1)) =
      some (some (.exception [0x01#8, 0x85#8, 0x03#8]), 0#8, 0#8, 0#8, false) ∧
    replyOf (exec (.writeCoil 0x01#8 1#16 0xFF00#16) (block 1)) = some (.exception [0x01#8, 0x85#8, 0x02#8]) ∧
    replyOf (exec (.writeCoil 0x01#8 1#16 0xFF00#16) { block 1 with sfaultIn := true }) =
      some (.exception [0x01#8, 0x85#8, 0x02#8]) ∧
    replyOf (exec (.writeCoil 0x01#8 2#16 0xFF00#16) (block 1)) = some (.exception [0x01#8, 0x85#8, 0x02#8]) ∧
    look (exec (.writeCoil 0x01#8 0#16 0xFF00#16) { block 1 with sfaultIn := true }) =
      some (some (.exception [0x01#8, 0x85#8, 0x04#8]), 0#8, 0#8, 0#8, false) := by decide

/-- Vectors 1.6a and 5.14. -/
theorem test_writeHoldRegister :
    look (transaction [0x01#8, 0x06#8, 0x00#8, 0x00#8, 0x01#8, 0x2C#8] (block 1)) =
      some (some (.success [0x01#8, 0x06#8, 0x00#8, 0x00#8, 0x01#8, 0x2C#8]), 0#8, 0#8, 0xFF#8, true) ∧
    look (exec (.writeHoldRegister 0x01#8 0#16 254#16) (block 1)) =
      some (some (.success [0x01#8, 0x06#8, 0x00#8, 0x00#8, 0x00#8, 0xFE#8]), 0#8, 0#8, 0xFE#8, true) := by decide

/-- Vector 1.6c. -/
theorem test_writeHoldRegister_address :
    look (exec (.writeHoldRegister 0x01#8 1#16 10#16) { block 1 with duty := 10#8 }) =
      some (some (.exception [0x01#8, 0x86#8, 0x02#8]), 0#8, 0#8, 10#8, false) := by decide

/-- Vectors 5.15 and 5.17. -/
theorem test_writeMultCoils :
    look (transaction [0x01#8, 0x0F#8, 0x00#8, 0x02#8, 0x00#8, 0x0A#8, 0x02#8, 0xCD#8, 0x01#8] (block 16)) =
      some (some (.success [0x01#8, 0x0F#8, 0x00#8, 0x02#8, 0x00#8, 0x0A#8]), 0x34#8, 0x07#8, 0#8, true) ∧
    look (exec (.writeMultCoils 0x01#8 0#16 8#16 0x02#8 [0xFF#8, 0x55#8]) stored) =
      some (some (.success [0x01#8, 0x0F#8, 0x00#8, 0x00#8, 0x00#8, 0x08#8]), 0xFF#8, 0x07#8, 0#8, true) := by decide

/-- Vectors 1.5d, 5.19, 5.22, 5.23 and 5.24: the order of the checks. -/
theorem test_writeMultCoils_checks :
    replyOf (exec (.writeMultCoils 0x01#8 0#16 2#16 0x00#8 []) (block 1)) = some (.exception [0x01#8, 0x8F#8, 0x02#8]) ∧
    replyOf (exec (.writeMultCoils 0x01#8 0#16 16#16 0x02#8 [0x00#8, 0x00#8]) stored) =
      some (.exception [0x01#8, 0x8F#8, 0x03#8]) ∧
    look (exec (.writeMultCoils 0x01#8 0#16 4#16 0x01#8 [0x0F#8]) { stored with sfaultIn := true }) =
      some (some (.exception [0x01#8, 0x8F#8, 0x04#8]), 0x34#8, 0x07#8, 0#8, false) ∧
    look (transaction [0x01#8, 0x0F#8, 0x00#8, 0x00#8, 0x00#8, 0x04#8, 0x01#8] stored) =
      some (some .refused, 0x34#8, 0x07#8, 0#8, false) ∧
    replyOf (exec (.writeMultCoils 0x01#8 0#16 4#16 0x02#8 []) stored) = some (.exception [0x01#8, 0x8F#8, 0x03#8]) := by
  decide

/-- Vectors 6.1 and 6.4, both settings of `P_UNSUPPORTED_FC`. -/
theorem test_unsupported :
    replyOf (transaction [0x01#8, 0x02#8, 0x00#8, 0x00#8, 0x00#8, 0x01#8] (block 1)) = some .noHandler ∧
    replyOf (transaction [0x01#8, 0x02#8, 0x00#8, 0x00#8, 0x00#8, 0x01#8] strict) =
      some (.exception [0x01#8, 0x82#8, 0x01#8]) ∧
    replyOf (transaction [0x01#8, 0x81#8, 0x00#8, 0x00#8, 0x00#8, 0x01#8] strict) =
      some (.exception [0x01#8, 0x81#8, 0x01#8]) := by decide

/-! ## The store, the encoder, the consumer and reset -/

/-- Vectors 2.6, 2.2, 2.3 and 1.2g. -/
theorem test_store_reads :
    readRange stored 3#16 6#16 = .done [0x26#8] ∧ readBit stored 2#16 = .done true ∧ readBit stored 3#16 = .done false ∧
    readRange (block 1) 1#16 0#16 = .done [] := by decide

/-- Vectors 2.21 and 2.20: only the named coils change, and the pad bits stay 0. -/
theorem test_store_writes :
    writeRange { block 16 with cb := [(0, 0xFF#8), (1, 0xFF#8)] } 3#16 2#16 [0x00#8] =
      .done { block 16 with cb := [(0, 0xE7#8), (1, 0xFF#8)] } ∧
    writeRange (block 10) 0#16 10#16 [0xFF#8, 0xFF#8] = .done { block 10 with cb := [(0, 0xFF#8), (1, 0x03#8)] } := by decide

/-- Vectors 3.7 and 3.9. -/
theorem test_encoder :
    (block 1 |> add8 0x01#8 |> add8 0x03#8 |> add8 0x04#8 |> add16 0x1234#16 |> add16 0x00FF#16).txn.rsp =
      [0x01#8, 0x03#8, 0x04#8, 0x12#8, 0x34#8, 0x00#8, 0xFF#8] ∧
    (block 1 |> add8 0x05#8 |> setError 0x01#8 0x03#8 0x02#8 |> add8 0x01#8).txn.rsp =
      [0x01#8, 0x83#8, 0x02#8, 0x01#8] := by decide

/-- Vectors 7.4 and 7.7 (with `P_DUTY_RESET = 0x80`, as the note after them says). -/
theorem test_takeTrigger_and_reset :
    step { triggered stored with pending := [.takeTrigger] } =
      .next { stored with duty := 77#8, portOut := some (.taken true) } ∧
    step { triggered stored with pending := [.reset], params := { capacity := 16, dutyReset := 0x80#8 } } =
      .next { block 16 with params := { capacity := 16, dutyReset := 0x80#8 }, duty := 0x80#8 } :=
  ⟨next_of_nextOf (by decide), next_of_nextOf (by decide)⟩

/-! ## Witnesses: values that meet the hypotheses of each statement -/

/-- The checks of well-formedness at their bounds, on both sides of a run's declared length. -/
theorem witness_DecodeOfEncodedRequest :
    (Instr.readCoil 0x01#8 2#16 10#16).wf = true ∧
    (Instr.writeMultCoils 0x01#8 0#16 1#16 0x00#8 []).wf = true ∧
    (Instr.writeMultCoils 0x01#8 2#16 10#16 0x02#8 [0xCD#8, 0x01#8]).wf = true ∧
    (Instr.writeMultCoils 0x01#8 2#16 10#16 0x02#8 [0xCD#8]).wf = true ∧
    (Instr.unsupported 0x07#8 0x07#8).wf = true ∧ (Instr.unsupported 0x01#8 0x10#8).wf = true := by decide

theorem witness_EncodeOfDecodedRequest :
    decode [0x01#8, 0x05#8, 0x00#8, 0x01#8, 0xFF#8, 0x00#8, 0x99#8] = .request (.writeCoil 0x01#8 1#16 0xFF00#16) ∧
    decode [0x01#8, 0x0F#8, 0x00#8, 0x00#8, 0x00#8, 0x04#8, 0x02#8, 0x0F#8] =
      .request (.writeMultCoils 0x01#8 0#16 4#16 0x02#8 [0x0F#8]) ∧
    decode [0x01#8, 0x02#8, 0x05#8] = .request (.unsupported 0x01#8 0x02#8) := by decide

/-- The neighbours of the supported codes. -/
theorem witness_DecodeReadsFieldsAtTheirOffsets :
    ∀ fc ∈ [0x00#8, 0x02#8, 0x07#8, 0x0E#8, 0x10#8, 0xFF#8],
      fc ∉ [0x01#8, 0x03#8, 0x04#8, 0x05#8, 0x06#8, 0x0F#8] := by decide

theorem witness_CursorReads :
    [0x01#8, 0x05#8][1]? = some 0x05#8 ∧ [0x01#8, 0x05#8][0]? = some 0x01#8 ∧
    0 + 2 ≤ [0x01#8, 0x05#8].length ∧ req8 [0x01#8, 0x05#8] 2 = none ∧ req16 [0x01#8, 0x05#8] 1 = none ∧
    reqRun [0x01#8, 0x05#8] 0 3 = none := by decide

theorem witness_StepRunsDecodedRequest :
    let s := { stored with pending := [.request [0x01#8, 0x01#8, 0x00#8, 0x03#8, 0x00#8, 0x06#8], .reset] }
    s.params.legal = true ∧ s.pending = .request [0x01#8, 0x01#8, 0x00#8, 0x03#8, 0x00#8, 0x06#8] :: [.reset] ∧
    decode [0x01#8, 0x01#8, 0x00#8, 0x03#8, 0x00#8, 0x06#8] = .request (.readCoil 0x01#8 3#16 6#16) := by decide

theorem witness_PresentedTableWordRunsNext :
    State.reset.params.legal = true ∧ decodeTableWord 8 0x05 = some (.writeCoil 0#8 0#16 0#16) := by decide

/-- One request for each clause, the longest that is still too short, and for the last two clauses the shortest that is long
enough. -/
theorem witness_LengthContract :
    [0x01#8].length < 2 ∧
    ([0x01#8, 0x05#8, 0x00#8, 0x00#8, 0xFF#8][1]? = some 0x05#8 ∧
      0x05#8 ∈ [0x01#8, 0x03#8, 0x04#8, 0x05#8, 0x06#8] ∧ [0x01#8, 0x05#8, 0x00#8, 0x00#8, 0xFF#8].length < 6) ∧
    ([0x01#8, 0x0F#8, 0x00#8, 0x00#8, 0x00#8, 0x04#8][1]? = some 0x0F#8 ∧
      [0x01#8, 0x0F#8, 0x00#8, 0x00#8, 0x00#8, 0x04#8].length < 7) ∧
    ((8#16 : Word).toNat ≠ 0 ∧ (8#16 : Word).toNat + (8#16 : Word).toNat ≤ stored.params.capacity ∧
      (0x02#8 : Byte).toNat = (8#16 : Word).toNat / 8 + 1 ∧ [0xFF#8].length < (0x02#8 : Byte).toNat) ∧
    ([0x01#8, 0x06#8, 0x00#8, 0x00#8, 0x00#8, 0x0A#8][1]? = some 0x06#8 ∧
      0x06#8 ∈ [0x01#8, 0x03#8, 0x04#8, 0x05#8, 0x06#8] ∧ [0x01#8, 0x06#8, 0x00#8, 0x00#8, 0x00#8, 0x0A#8].length = 6) ∧
    ([0x01#8, 0x0F#8, 0x00#8, 0x00#8, 0x00#8, 0x04#8, 0x01#8, 0x0F#8][1]? = some 0x0F#8 ∧
      [0x01#8, 0x0F#8, 0x00#8, 0x00#8, 0x00#8, 0x04#8, 0x01#8, 0x0F#8][6]? = some 0x01#8 ∧
      [0x01#8, 0x0F#8, 0x00#8, 0x00#8, 0x00#8, 0x04#8, 0x01#8, 0x0F#8].length = 7 + (0x01#8 : Byte).toNat) := by decide

theorem witness_OneOutcomePerRequest :
    (setError 0x01#8 0x03#8 0x02#8 (block 1)).txn.rspErr = true ∧ (add8 0x01#8 (block 1)).txn.rspErr = false := by decide

/-- A range that ends at `N` and one that ends one past it; an empty range at `N`; a request one byte short. -/
theorem witness_ReadCoilAnswersPackedCoils :
    ((10#16 : Word).toNat + (6#16 : Word).toNat ≤ stored.params.capacity ∧
      replyOf (exec (.readCoil 0x01#8 10#16 6#16) stored) = some (.success [0x01#8, 0x01#8, 0x01#8, 0x01#8])) ∧
    ((16#16 : Word).toNat + (0#16 : Word).toNat ≤ stored.params.capacity ∧
      replyOf (exec (.readCoil 0x01#8 16#16 0#16) stored) = some (.success [0x01#8, 0x01#8, 0x00#8])) ∧
    (stored.params.capacity < (10#16 : Word).toNat + (7#16 : Word).toNat ∧
      replyOf (exec (.readCoil 0x01#8 10#16 7#16) stored) = some (.exception [0x01#8, 0x81#8, 0x02#8])) ∧
    stored.params.legal = true ∧
    ([0x01#8, 0x01#8, 0x00#8, 0x00#8, 0x00#8][1]? = some 0x01#8 ∧ [0x01#8, 0x01#8, 0x00#8, 0x00#8, 0x00#8].length < 6) := by
  decide

/-- A view that ends at word 20 and one that ends one past it, under both settings of the trailer. -/
theorem witness_ReadHoldRegisterRepeatsOneSample :
    ({ block 1 with distIn := some 150#16 } : State).distIn = some 150#16 ∧
    (19#16 : Word).toNat + (1#16 : Word).toNat ≤ 20 ∧
    (20 < (19#16 : Word).toNat + (2#16 : Word).toNat ∧ (block 1).params.regErrorTrailer = .suppress ∧
      replyOf (exec (.readHoldRegister 0x01#8 19#16 2#16) (block 1)) = some (.exception [0x01#8, 0x83#8, 0x02#8])) ∧
    (20 < (21#16 : Word).toNat + (0#16 : Word).toNat ∧ appending.params.regErrorTrailer = .append ∧
      replyOf (exec (.readHoldRegister 0x01#8 21#16 0#16) appending) =
        some (.exception [0x01#8, 0x83#8, 0x02#8, 0x01#8, 0x03#8, 0x00#8])) ∧
    ([0x01#8, 0x03#8, 0x00#8, 0x00#8][1]? = some 0x03#8 ∧ [0x01#8, 0x03#8, 0x00#8, 0x00#8].length < 6) := by decide

/-- The last supplied draw of a two-word read; the view's end and one past it under both settings of the trailer. -/
theorem witness_ReadInputRegisterDrawsEachWord :
    (1 < (2#16 : Word).toNat ∧ ({ block 1 with randIn := [0xBEEE, 0] } : State).randIn[1]? = some 0) ∧
    (2#16 : Word).toNat ≤ ({ block 1 with randIn := [0xBEEE, 0] } : State).randIn.length ∧
    (18#16 : Word).toNat + (2#16 : Word).toNat ≤ 20 ∧
    (20 < (20#16 : Word).toNat + (1#16 : Word).toNat ∧ (block 1).params.regErrorTrailer = .suppress ∧
      replyOf (exec (.readInputRegister 0x01#8 20#16 1#16) (block 1)) = some (.exception [0x01#8, 0x84#8, 0x02#8])) ∧
    (20 < (20#16 : Word).toNat + (1#16 : Word).toNat ∧ appending.params.regErrorTrailer = .append) ∧
    ([0x01#8, 0x04#8][1]? = some 0x04#8 ∧ [0x01#8, 0x04#8].length < 6) := by decide

/-- A code one bit from each legal one; the index `N`; the index `N - 1` with and without a storage fault; a short request. -/
theorem witness_WriteCoilWritesOneCoil :
    (0x0001#16 ≠ 0x0000#16 ∧ 0x0001#16 ≠ 0xFF00#16) ∧ (0xFF01#16 ≠ 0x0000#16 ∧ 0xFF01#16 ≠ 0xFF00#16) ∧
    (0x0000#16 = 0x0000#16 ∨ 0x0000#16 = 0xFF00#16) ∧ stored.params.capacity ≤ (16#16 : Word).toNat ∧
    ((15#16 : Word).toNat < stored.params.capacity ∧ ({ stored with sfaultIn := true } : State).sfaultIn = true) ∧
    ((15#16 : Word).toNat < stored.params.capacity ∧ stored.sfaultIn = false ∧ stored.cb.wf ∧
      look (exec (.writeCoil 0x01#8 15#16 0xFF00#16) stored) =
        some (some (.success [0x01#8, 0x05#8, 0x00#8, 0x0F#8, 0xFF#8, 0x00#8]), 0x34#8, 0x87#8, 0#8, true)) ∧
    ([0x01#8, 0x05#8, 0x00#8, 0x00#8, 0xFF#8][1]? = some 0x05#8 ∧ [0x01#8, 0x05#8, 0x00#8, 0x00#8, 0xFF#8].length < 6) := by
  decide

theorem witness_WriteHoldRegisterSetsDuty :
    (0#16 : Word).toNat = 0 ∧ (1#16 : Word).toNat ≠ 0 ∧
    ([0x01#8, 0x06#8, 0x00#8][1]? = some 0x06#8 ∧ [0x01#8, 0x06#8, 0x00#8].length < 6) := by decide

/-- For each check the values next to its limit: `count = 0`; a range one past `N`; a byte count one below; a run one byte
short; a range that ends at `N`, with and without a storage fault. -/
theorem witness_WriteMultCoilsWritesTheRange :
    ((0#16 : Word).toNat = 0) ∧ (stored.params.capacity < (10#16 : Word).toNat + (7#16 : Word).toNat) ∧
    ((8#16 : Word).toNat ≠ 0 ∧ (8#16 : Word).toNat + (8#16 : Word).toNat ≤ stored.params.capacity ∧
      (0x01#8 : Byte).toNat ≠ (8#16 : Word).toNat / 8 + 1) ∧
    ((8#16 : Word).toNat ≠ 0 ∧ (8#16 : Word).toNat + (8#16 : Word).toNat ≤ stored.params.capacity ∧
      (0x02#8 : Byte).toNat = (8#16 : Word).toNat / 8 + 1 ∧ [0xFF#8].length < (0x02#8 : Byte).toNat) ∧
    ((0x02#8 : Byte).toNat ≤ [0xFF#8, 0x00#8].length ∧ ({ stored with sfaultIn := true } : State).sfaultIn = true) ∧
    (stored.sfaultIn = false ∧ stored.cb.wf ∧
      look (exec (.writeMultCoils 0x01#8 8#16 8#16 0x02#8 [0xFF#8, 0x00#8]) stored) =
        some (some (.success [0x01#8, 0x0F#8, 0x00#8, 0x08#8, 0x00#8, 0x08#8]), 0x34#8, 0xFF#8, 0#8, true)) ∧
    ([0x01#8, 0x0F#8, 0x00#8, 0x00#8, 0x00#8, 0x04#8][1]? = some 0x0F#8 ∧
      [0x01#8, 0x0F#8, 0x00#8, 0x00#8, 0x00#8, 0x04#8].length < 7) := by decide

theorem witness_UnsupportedCodeOutcome :
    0x02#8 ∉ [0x01#8, 0x03#8, 0x04#8, 0x05#8, 0x06#8, 0x0F#8] ∧ (block 1).params.unsupportedFc = .noHandler ∧
    strict.params.unsupportedFc = .illegalFunction := by decide

theorem witness_DutyIsClamped :
    (nextOf (exec (.writeHoldRegister 0x01#8 0#16 300#16) (block 1))).map (·.duty) = some 255#8 ∧
    (nextOf (exec (.writeHoldRegister 0x01#8 0#16 10#16) (block 1))).map (·.duty) = some 10#8 := by decide

/-- The largest count of the largest store, and two runs that differ above `count` and in their last byte only. -/
theorem witness_ByteCountCheck :
    (0 < 1 ∧ 7 ≤ 7) ∧
    (2040 ≤ (2040#16 : Word).toNat ∧ (0#16 : Word).toNat + (2040#16 : Word).toNat ≤ (block 2040).params.capacity) ∧
    ((0x02#8 : Byte).toNat ≤ [0x0F#8, 0xAA#8, 0x01#8].length ∧ (0x02#8 : Byte).toNat ≤ [0xFF#8, 0x55#8].length ∧
      ∀ i < (4#16 : Word).toNat, runBit [0x0F#8, 0xAA#8, 0x01#8] i = runBit [0xFF#8, 0x55#8] i) := by decide

theorem witness_TakeTriggerReadsAndClears :
    let s := { triggered stored with pending := [.takeTrigger] }
    s.params.legal = true ∧ s.pending = .takeTrigger :: [] ∧ s.trig = true ∧
      ({ stored with pending := [.takeTrigger] } : State).trig = false := by decide

theorem witness_ResetSetsResetValues :
    let s := { triggered stored with pending := [.reset] }
    s.params.legal = true ∧ s.pending = .reset :: [] := by decide

/-- The legal capacities at both ends. -/
theorem witness_StateAfterReset :
    (block 1).params.legal = true ∧ (block 2040).params.legal = true := by decide

/-- The capacities next to the legal range, and an idle block. -/
theorem witness_IdleAndIllegalSteps :
    (stored.params.legal = true ∧ stored.pending = []) ∧ (block 0).params.capacity = 0 ∧
    2040 < (block 2041).params.capacity := by decide

theorem witness_PinChangesTouchOnlyThePin :
    stored.params.legal = true ∧
    ({ stored with pending := [.driveDist 150#16] } : State).pending = .driveDist 150#16 :: [] ∧
    ({ stored with pending := [.driveRand [7, 65534]] } : State).pending = .driveRand [7, 65534] :: [] ∧
    ({ stored with pending := [.driveSfault true] } : State).pending = .driveSfault true :: [] := by decide

theorem witness_OutputLevels : 15 < stored.params.capacity ∧ stored.coilOut[10]? = some true := by decide

/-- The last coil and the index after it. -/
theorem witness_ReadBitAnswersTheCoil :
    (15#16 : Word).toNat < stored.params.capacity ∧ stored.params.capacity ≤ (16#16 : Word).toNat := by decide

theorem witness_ReadRangePacksTheCoils :
    (8#16 : Word).toNat + (8#16 : Word).toNat ≤ stored.params.capacity ∧
    stored.params.capacity < (10#16 : Word).toNat + (7#16 : Word).toNat := by decide

theorem witness_WriteBitWritesOneCoil :
    stored.params.capacity ≤ (16#16 : Word).toNat ∧ (15#16 : Word).toNat < stored.params.capacity ∧
    ({ stored with sfaultIn := true } : State).sfaultIn = true ∧ stored.sfaultIn = false ∧ stored.cb.wf := by decide

/-- Vectors 2.18, 2.17 and 1.1c: exactly as many bytes as the count takes. -/
theorem witness_WriteRangeWritesAllOrNothing :
    (((5#16 : Word).toNat + 7) / 8 ≤ [0x1F#8].length ∧
      stored.params.capacity < (12#16 : Word).toNat + (5#16 : Word).toNat) ∧
    (((16#16 : Word).toNat + 7) / 8 ≤ [0xA5#8, 0x5A#8].length ∧
      (0#16 : Word).toNat + (16#16 : Word).toNat ≤ stored.params.capacity ∧ stored.sfaultIn = false ∧ stored.cb.wf) ∧
    ({ stored with sfaultIn := true } : State).sfaultIn = true ∧
    (∀ j ∈ List.range 24, stored.params.capacity ≤ j → stored.coil j = false) := by decide

/-- Vector 1.1b, and a run that differs from it only above `count` (log 20: not the run of vector 1.1d, which differs from it
below `count` too). -/
theorem witness_ReadAfterWriteReturnsCanonicalBytes :
    (block 16).cb.wf ∧ (2#16 : Word).toNat + (10#16 : Word).toNat ≤ (block 16).params.capacity ∧
    writeRange (block 16) 2#16 10#16 [0xCD#8, 0x01#8] = .done stored ∧
    writeRange (block 16) 2#16 10#16 [0xCD#8, 0xFD#8] = .done stored ∧
    readRange stored 2#16 10#16 = .done [0xCD#8, 0x01#8] ∧
    [0xCD#8, 0x01#8].length = ((10#16 : Word).toNat + 7) / 8 ∧
    (∀ k < 8, 10 ≤ 8 * 1 + k → ([0xCD#8, 0x01#8].getD 1 0#8).getLsbD k = false) := by decide

theorem witness_OutOfRangeAccessesFail :
    (block 1).params.capacity ≤ (1#16 : Word).toNat ∧
    (block 1).params.capacity < (0#16 : Word).toNat + (2#16 : Word).toNat := by decide

theorem witness_RangeIsCheckedBeforeStorageFault :
    stored.params.capacity ≤ (16#16 : Word).toNat ∧ (15#16 : Word).toNat < stored.params.capacity ∧
    stored.params.capacity < (12#16 : Word).toNat + (5#16 : Word).toNat ∧
    (12#16 : Word).toNat + (4#16 : Word).toNat ≤ stored.params.capacity := by decide

theorem witness_SetErrorDiscardsAndAddsFollow : 0x80 ≤ (0x80#8 : Byte).toNat ∧ 0x80 ≤ (0x81#8 : Byte).toNat := by decide

/-- A success and an exception. -/
theorem witness_ResponseShapes :
    (∃ t, exec (.readCoil 0x01#8 3#16 6#16) stored = .next t ∧
      t.portOut = some (.response (.success [0x01#8, 0x01#8, 0x01#8, 0x26#8]))) ∧
    (∃ t, exec (.readCoil 0x01#8 16#16 1#16) stored = .next t ∧
      t.portOut = some (.response (.exception [0x01#8, 0x81#8, 0x02#8]))) ∧
    stored.params.regErrorTrailer = .suppress :=
  ⟨⟨_, next_of_nextOf (t := { stored with
      portOut := some (.response (.success [0x01#8, 0x01#8, 0x01#8, 0x26#8])) }) (by decide), rfl⟩,
    ⟨_, next_of_nextOf (t := { stored with
      portOut := some (.response (.exception [0x01#8, 0x81#8, 0x02#8])) }) (by decide), rfl⟩, by decide⟩

/-- A store of two bytes, both with coils at 1, and an operation pending. -/
theorem stored_inv (ops : List Operation) : ({ stored with pending := ops } : State).Inv where
  capacity_legal := rfl
  buffer_canonical := by
    show Memory.wf [(0, 0x34#8), (1, 0x07#8)]
    decide
  pad_bits_zero i h := by
    have h : 16 ≤ i := h
    have h0 : ¬ (0 = i / 8) := by omega
    have h1 : ¬ (1 = i / 8) := by omega
    simp [State.coil, stored, Memory.coil, Memory.read, h0, h1]
  no_transaction := rfl

/-- The state after vector 5.21: `CB = [34 87]`. -/
def after521 : State := { stored with
  cb := [(0, 0x34#8), (1, 0x87#8)], trig := true
  portOut := some (.response (.success [0x01#8, 0x0F#8, 0x00#8, 0x0F#8, 0x00#8, 0x01#8])) }

/-- Vector 5.21, as the oldest pending operation. -/
def before521 : State := { stored with
  pending := [.request [0x01#8, 0x0F#8, 0x00#8, 0x0F#8, 0x00#8, 0x01#8, 0x01#8, 0x01#8]] }

theorem step521 : step before521 = .next after521 := next_of_nextOf (by decide)

theorem exec521 : exec (.writeMultCoils 0x01#8 15#16 1#16 0x01#8 [0x01#8]) stored = .next after521 :=
  next_of_nextOf (by decide)

theorem witness_StepKeepsInvariant : before521.Inv ∧ step before521 = .next after521 := ⟨stored_inv _, step521⟩

theorem witness_StepCompletesWithInvariant : before521.Inv := stored_inv _

/-- A run of one write, from a legal construction. -/
theorem witness_EveryRunCompletes :
    Reachable { block 16 with
      duty := 255#8, trig := true
      portOut := some (.response (.success [0x01#8, 0x06#8, 0x00#8, 0x00#8, 0x01#8, 0x2C#8])) } :=
  .step (.start { capacity := 16 } [.request [0x01#8, 0x06#8, 0x00#8, 0x00#8, 0x01#8, 0x2C#8]] (by decide))
    (next_of_nextOf (by decide))

theorem witness_OnlySuccessChangesState :
    ∃ t, exec (.writeCoil 0x01#8 16#16 0xFF00#16) stored = .next t ∧
      t.portOut = some (.response (.exception [0x01#8, 0x85#8, 0x02#8])) ∧
      isSuccess (.exception [0x01#8, 0x85#8, 0x02#8]) = false :=
  ⟨_, next_of_nextOf (t := { stored with
      portOut := some (.response (.exception [0x01#8, 0x85#8, 0x02#8])) }) (by decide), rfl, rfl⟩

/-- The first and last clauses: a successful write; the second: a request that is no request; the third and fourth: the
consumer takes a pending trigger, and a reset. -/
theorem witness_TriggerFlagRules :
    (exec (.writeMultCoils 0x01#8 15#16 1#16 0x01#8 [0x01#8]) stored = .next after521 ∧
      after521.portOut = some (.response (.success [0x01#8, 0x0F#8, 0x00#8, 0x0F#8, 0x00#8, 0x01#8]))) ∧
    (decode [0x01#8] = .reject .noFunctionCode ∧
      transaction [0x01#8] (triggered stored) =
        .next { triggered stored with portOut := some (.response .refused) }) ∧
    (let s := { triggered stored with pending := [.takeTrigger] }
     step s = .next { s with trig := false, portOut := some (.taken true), pending := [] } ∧ s.trig = true ∧
      s.params.legal = true ∧ s.pending = .takeTrigger :: []) ∧
    (let s := { triggered stored with pending := [.reset] }
     s.params.legal = true ∧ s.pending = .reset :: []) :=
  ⟨⟨exec521, rfl⟩, ⟨by decide, next_of_nextOf (by decide)⟩, ⟨next_of_nextOf (by decide), rfl, by decide, rfl⟩,
    by decide, rfl⟩

/-- The first clause: a write of holding address 0, and a reset, that change `DUTY`; the second: any request. -/
theorem witness_OnlyHoldingAddressZeroWritesDuty :
    (let s := { block 1 with pending := [.request [0x01#8, 0x06#8, 0x00#8, 0x00#8, 0x00#8, 0xFE#8]] }
     let t := { block 1 with
       duty := 254#8, trig := true
       portOut := some (.response (.success [0x01#8, 0x06#8, 0x00#8, 0x00#8, 0x00#8, 0xFE#8])) }
     step s = .next t ∧ t.duty ≠ s.duty) ∧
    (let s := { triggered (block 1) with pending := [.reset] }
     step s = .next (block 1) ∧ (block 1).duty ≠ s.duty) ∧
    exec (.writeMultCoils 0x01#8 15#16 1#16 0x01#8 [0x01#8]) stored = .next after521 :=
  ⟨⟨next_of_nextOf (by decide), by decide⟩, ⟨next_of_nextOf (by decide), by decide⟩, exec521⟩

theorem witness_OnlyCoilWritesChangeCoils :
    step before521 = .next after521 ∧ after521.cb ≠ before521.cb := ⟨step521, by decide⟩

theorem witness_ParametersAndOrderAreKept : step before521 = .next after521 := step521

theorem witness_UnitIsOnlyEchoed :
    stored.params.regErrorTrailer = .suppress ∧
    exec (.writeMultCoils 0x01#8 15#16 1#16 0x01#8 [0x01#8]) stored = .next after521 ∧
    after521.portOut = some (.response (.success [0x01#8, 0x0F#8, 0x00#8, 0x0F#8, 0x00#8, 0x01#8])) :=
  ⟨by decide, exec521, rfl⟩

theorem witness_RepeatedWriteChangesNothing :
    stored.cb.wf ∧ writesState (.writeMultCoils 0x01#8 15#16 1#16 0x01#8 [0x01#8]) = true ∧
    exec (.writeMultCoils 0x01#8 15#16 1#16 0x01#8 [0x01#8]) stored = .next after521 ∧
    after521.portOut = some (.response (.success [0x01#8, 0x0F#8, 0x00#8, 0x0F#8, 0x00#8, 0x01#8])) :=
  ⟨by decide, rfl, exec521, rfl⟩

end Sys2Proof.Tests
end

/-! ## What each request does: one equation per case of its handler -/

namespace Sys2Proof.Machine

section HandlerEquations

variable {unit : Byte} {s : State}

/-! ### FC 0x01 READ_COIL (R127) -/

theorem exec_readCoil_outOfRange {start count : Word} (h : s.params.capacity < start.toNat + count.toNat) :
    exec (.readCoil unit start count) s = raise .outOfRange (openTxn (.readCoil unit start count) s) :=
  if_pos h

theorem exec_readCoil_inRange {start count : Word} (h : start.toNat + count.toNat ≤ s.params.capacity) :
    exec (.readCoil unit start count) s =
      .next (emitReply (.success ([unit, 0x01#8, BitVec.ofNat 8 (ceilDiv8 count.toNat)] ++
        s.cb.packCoils start.toNat count.toNat)) s) := by
  have hn : ¬ start.toNat + count.toNat > s.params.capacity := by omega
  simp only [exec, execReadCoil, readRange, capacity, openTxn_params, hn, if_false]
  rfl

/-! ### FC 0x05 WRITE_COIL (R130) -/

theorem exec_writeCoil_badValue {coilIndex code : Word} (h : legalOnOffCode code = false) :
    exec (.writeCoil unit coilIndex code) s = raise .badValue (openTxn (.writeCoil unit coilIndex code) s) := by
  simp [exec, execWriteCoil, h]

/-- The handler's own check lets `coil_index = N` through, and the store then rejects it with the same error (R142). -/
theorem exec_writeCoil_outOfRange {coilIndex code : Word} (hc : legalOnOffCode code = true)
    (h : s.params.capacity ≤ coilIndex.toNat) :
    exec (.writeCoil unit coilIndex code) s = raise .outOfRange (openTxn (.writeCoil unit coilIndex code) s) := by
  simp [exec, execWriteCoil, writeBit, capacity, storeFailed, hc, h]

theorem exec_writeCoil_storageFault {coilIndex code : Word} (hc : legalOnOffCode code = true)
    (h : coilIndex.toNat < s.params.capacity) (hf : s.sfaultIn = true) :
    exec (.writeCoil unit coilIndex code) s = raise .storageFault (openTxn (.writeCoil unit coilIndex code) s) := by
  simp [exec, execWriteCoil, writeBit, capacity, storeFailed, hc, hf, Nat.not_le.2 h, Nat.not_lt.2 h.le]

theorem exec_writeCoil_writes {coilIndex code : Word} (hc : legalOnOffCode code = true)
    (h : coilIndex.toNat < s.params.capacity) (hf : s.sfaultIn = false) :
    exec (.writeCoil unit coilIndex code) s =
      .next (emitReply (.success ((encode (.writeCoil unit coilIndex code)).take 6))
        { s with cb := s.cb.setCoil coilIndex.toNat (onOffValue code), trig := true }) := by
  simp only [exec, execWriteCoil, writeBit, capacity, openTxn_params, openTxn_sfaultIn, hc, hf,
    if_neg (Nat.not_le.2 h), if_neg (Nat.not_lt.2 h.le), Bool.not_true, Bool.false_eq_true, if_false]
  rfl

/-! ### FC 0x06 WRITE_HOLD_REGISTER (R131) -/

theorem exec_writeHoldRegister_outOfRange {addr value : Word} (h : addr ≠ 0#16) :
    exec (.writeHoldRegister unit addr value) s =
      raise .outOfRange (openTxn (.writeHoldRegister unit addr value) s) :=
  if_pos h

theorem exec_writeHoldRegister_writes {value : Word} :
    exec (.writeHoldRegister unit 0#16 value) s =
      .next (emitReply (.success ((encode (.writeHoldRegister unit 0#16 value)).take 6))
        { s with duty := clampDuty value, trig := true }) := rfl

/-! ### FC 0x0F WRITE_MULT_COILS (R132) -/

/-- The packed run read at the cursor behind the fixed fields (R115). -/
theorem reqRun_encode_writeMultCoils (unit : Byte) (start count : Word) (byteCount : Byte) (packed : List Byte) (n : Nat) :
    reqRun (encode (.writeMultCoils unit start count byteCount packed)) 7 n =
      if packed.length < n then none else some (packed.take n, 7 + n) := by
  have hlen : (encode (.writeMultCoils unit start count byteCount packed)).length = 7 + packed.length := by
    simp [encode, wordBytes]; omega
  have hdrop : (encode (.writeMultCoils unit start count byteCount packed)).drop 7 = packed := rfl
  obtain ⟨h, hr⟩ | ⟨h, hr⟩ :=
    reqRun_cases (encode (.writeMultCoils unit start count byteCount packed)) 7 n
  · rw [hr, if_pos (by omega)]
  · rw [hr, if_neg (by omega), hdrop]

variable {start count : Word} {byteCount : Byte} {packed : List Byte}

theorem exec_writeMultCoils_outOfRange (h : count = 0#16 ∨ s.params.capacity < start.toNat + count.toNat) :
    exec (.writeMultCoils unit start count byteCount packed) s =
      raise .outOfRange (openTxn (.writeMultCoils unit start count byteCount packed) s) :=
  if_pos h

theorem exec_writeMultCoils_badByteCount (h : ¬ (count = 0#16 ∨ s.params.capacity < start.toNat + count.toNat))
    (hb : byteCount.toNat ≠ declaredBytes count.toNat) :
    exec (.writeMultCoils unit start count byteCount packed) s =
      raise .badByteCount (openTxn (.writeMultCoils unit start count byteCount packed) s) :=
  (if_neg h).trans (if_pos hb)

/-- A request that ends before its run is answered only after address, count and byte count have passed (R79). -/
theorem exec_writeMultCoils_runMissing (h : ¬ (count = 0#16 ∨ s.params.capacity < start.toNat + count.toNat))
    (hb : byteCount.toNat = declaredBytes count.toNat) (hp : packed.length < byteCount.toNat) :
    exec (.writeMultCoils unit start count byteCount packed) s = .next (emitRefused s) := by
  refine (if_neg h).trans ((if_neg (not_not.2 hb)).trans ?_)
  simp only [openTxn_txn_req, openTxn_txn_off, Instr.fixedLength, reqRun_encode_writeMultCoils, if_pos hp]
  rfl

theorem exec_writeMultCoils_storageFault (h : ¬ (count = 0#16 ∨ s.params.capacity < start.toNat + count.toNat))
    (hb : byteCount.toNat = declaredBytes count.toNat) (hp : byteCount.toNat ≤ packed.length)
    (hf : s.sfaultIn = true) :
    exec (.writeMultCoils unit start count byteCount packed) s =
      raise .storageFault (openTxn (.writeMultCoils unit start count byteCount packed) s) := by
  have hr : ¬ start.toNat + count.toNat > s.params.capacity := fun hgt => h (.inr hgt)
  refine (if_neg h).trans ((if_neg (not_not.2 hb)).trans ?_)
  simp only [openTxn_txn_req, openTxn_txn_off, Instr.fixedLength, reqRun_encode_writeMultCoils,
    if_neg (Nat.not_lt.2 hp), writeRange, capacity, openTxn_params, if_neg hr, openTxn_sfaultIn, hf, if_true]
  rfl

/-- `(count >> 3) + 1` bytes are never fewer than the `ceil(count/8)` that the store must read (R141), so its precondition
holds. -/
theorem exec_writeMultCoils_writes (h : ¬ (count = 0#16 ∨ s.params.capacity < start.toNat + count.toNat))
    (hb : byteCount.toNat = declaredBytes count.toNat) (hp : byteCount.toNat ≤ packed.length)
    (hf : s.sfaultIn = false) :
    exec (.writeMultCoils unit start count byteCount packed) s =
      .next (emitReply (.success ([unit, 0x0F#8] ++ wordBytes start ++ wordBytes count))
        { s with
          cb := s.cb.unpackCoils start.toNat (packed.take byteCount.toNat) count.toNat
          trig := true }) := by
  have hr : ¬ start.toNat + count.toNat > s.params.capacity := fun hgt => h (.inr hgt)
  have hlen : ¬ (packed.take byteCount.toNat).length < ceilDiv8 count.toNat := by
    rw [List.length_take, Nat.min_eq_left hp, hb]
    simp only [declaredBytes, ceilDiv8]
    omega
  refine (if_neg h).trans ((if_neg (not_not.2 hb)).trans ?_)
  simp only [openTxn_txn_req, openTxn_txn_off, Instr.fixedLength, reqRun_encode_writeMultCoils,
    if_neg (Nat.not_lt.2 hp), writeRange, capacity, openTxn_params, if_neg hr, openTxn_sfaultIn, hf,
    Bool.false_eq_true, if_false, if_neg hlen]
  rfl

/-! ### Function codes with no handler (R77) -/

theorem exec_unsupported_noHandler {fc : Byte} (h : s.params.unsupportedFc = .noHandler) :
    exec (.unsupported unit fc) s = .next (emitReply .noHandler s) := by
  simp only [exec, execUnsupported, openTxn_params, h]
  rfl

theorem exec_unsupported_illegalFunction {fc : Byte} (h : s.params.unsupportedFc = .illegalFunction) :
    exec (.unsupported unit fc) s =
      .next (emitReply (.exception [unit, fc ||| 0x80#8, illegalFunctionCode]) s) := by
  simp only [exec, execUnsupported, openTxn_params, h]
  rfl

end HandlerEquations

/-! ## The effect of a request

Every request ends in one of three effects, and which one, with all its values, is fixed by the request and by the parts of
the state other than `DUTY` and `TRIG`. -/

/-- What a request does to the state. -/
inductive Effect where
  /-- An outcome that writes no persistent state; `randIn` and `freeCount` are what its draws leave. -/
  | answer (r : Reply) (randIn : List Config.RandDraw) (freeCount : Nat)
  /-- A successful coil write, with the buffer it leaves and its response. -/
  | setCoils (cb : Memory) (rsp : List Byte)
  /-- A successful write of holding address 0, with the value of `DUTY` and its response. -/
  | setDuty (duty : Byte) (rsp : List Byte)

/-- The state that an effect leaves. -/
def Effect.apply : Effect → State → State
  | .answer r randIn freeCount, s => emitReply r { s with randIn := randIn, freeCount := freeCount }
  | .setCoils cb rsp, s => emitReply (.success rsp) { s with cb := cb, trig := true }
  | .setDuty duty rsp, s => emitReply (.success rsp) { s with duty := duty, trig := true }

/-- Which effects a request can have: the writes belong to the function codes that write (R138), a coil write keeps the
canonical form and every bit that holds no coil, and `DUTY` takes the clamped value. -/
def Effect.Allowed (i : Instr) (s : State) : Effect → Prop
  | .answer r _ _ => (isSuccess r && writesState i) = false
  | .setCoils cb _ => writesState i = true ∧ (i.fc = 0x05#8 ∨ i.fc = 0x0F#8) ∧
      (s.cb.wf → cb.wf ∧ ∀ j, s.params.capacity ≤ j → cb.coil j = s.coil j)
  | .setDuty duty _ => ∃ unit value, i = .writeHoldRegister unit 0#16 value ∧ duty = clampDuty value

/-- `s` with any `DUTY` and any `TRIG`. -/
def State.withDutyTrig (s : State) (d : Byte) (b : Bool) : State := { s with duty := d, trig := b }

/-- `e` is the effect of the request `i` in `s`, and would be for any other `DUTY` and `TRIG`. -/
def Effect.IsOf (e : Effect) (i : Instr) (s : State) : Prop :=
  e.Allowed i s ∧ ∀ d b, exec i (s.withDutyTrig d b) = .next (e.apply (s.withDutyTrig d b))

section Effects

variable {i : Instr} {s t : State}

/-- A request that takes an exception has the exception response as its effect (R186). -/
theorem effect_of_raise {k : ErrorKind}
    (h : ∀ d b, exec i (s.withDutyTrig d b) = raise k (openTxn i (s.withDutyTrig d b))) :
    ∃ e : Effect, e.IsOf i s :=
  ⟨.answer (.exception [i.unit, i.fc ||| 0x80#8, exceptionCode k]) s.randIn s.freeCount, rfl,
    fun d b => (h d b).trans (raise_openTxn k i _)⟩

theorem readCoil_effect (unit : Byte) (start count : Word) (s : State) :
    ∃ e : Effect, e.IsOf (.readCoil unit start count) s := by
  by_cases h : start.toNat + count.toNat ≤ s.params.capacity
  · exact ⟨.answer (.success ([unit, 0x01#8, BitVec.ofNat 8 (ceilDiv8 count.toNat)] ++
      s.cb.packCoils start.toNat count.toNat)) s.randIn s.freeCount, Bool.and_false _,
      fun _ _ => exec_readCoil_inRange h⟩
  · exact effect_of_raise fun _ _ => exec_readCoil_outOfRange (Nat.not_le.1 h)

theorem writeCoil_effect (unit : Byte) (coilIndex code : Word) (s : State) :
    ∃ e : Effect, e.IsOf (.writeCoil unit coilIndex code) s := by
  cases hc : legalOnOffCode code with
  | false => exact effect_of_raise fun _ _ => exec_writeCoil_badValue hc
  | true =>
    by_cases h : coilIndex.toNat < s.params.capacity
    · cases hf : s.sfaultIn with
      | true => exact effect_of_raise fun _ _ => exec_writeCoil_storageFault hc h hf
      | false =>
        refine ⟨.setCoils _ _, ⟨rfl, .inl rfl, fun hwf => ⟨Memory.wf_setCoil hwf _ _, fun j hj => ?_⟩⟩,
          fun _ _ => exec_writeCoil_writes hc h hf⟩
        exact (Memory.coil_setCoil hwf _ _ j).trans (if_neg (by omega))
    · exact effect_of_raise fun _ _ => exec_writeCoil_outOfRange hc (Nat.not_lt.1 h)

theorem writeHoldRegister_effect (unit : Byte) (addr value : Word) (s : State) :
    ∃ e : Effect, e.IsOf (.writeHoldRegister unit addr value) s := by
  by_cases h : addr = 0#16
  · subst h
    exact ⟨.setDuty _ _, ⟨unit, value, rfl, rfl⟩, fun _ _ => exec_writeHoldRegister_writes⟩
  · exact effect_of_raise fun _ _ => exec_writeHoldRegister_outOfRange h

theorem writeMultCoils_effect (unit : Byte) (start count : Word) (byteCount : Byte) (packed : List Byte) (s : State) :
    ∃ e : Effect, e.IsOf (.writeMultCoils unit start count byteCount packed) s := by
  by_cases h : count = 0#16 ∨ s.params.capacity < start.toNat + count.toNat
  · exact effect_of_raise fun _ _ => exec_writeMultCoils_outOfRange h
  by_cases hb : byteCount.toNat = declaredBytes count.toNat
  · by_cases hp : byteCount.toNat ≤ packed.length
    · cases hf : s.sfaultIn with
      | true => exact effect_of_raise fun _ _ => exec_writeMultCoils_storageFault h hb hp hf
      | false =>
        refine ⟨.setCoils _ _, ⟨rfl, .inr rfl, fun hwf => ⟨Memory.wf_unpackCoils hwf _ _ _, fun j hj => ?_⟩⟩,
          fun _ _ => exec_writeMultCoils_writes h hb hp hf⟩
        exact (Memory.coil_unpackCoils hwf _ _ _ j).trans (if_neg (by omega))
    · exact ⟨.answer .refused s.randIn s.freeCount, rfl,
        fun _ _ => exec_writeMultCoils_runMissing h hb (Nat.not_le.1 hp)⟩
  · exact effect_of_raise fun _ _ => exec_writeMultCoils_badByteCount h hb

theorem unsupported_effect (unit fc : Byte) (s : State) : ∃ e : Effect, e.IsOf (.unsupported unit fc) s := by
  cases h : s.params.unsupportedFc with
  | noHandler => exact ⟨.answer .noHandler s.randIn s.freeCount, rfl, fun _ _ => exec_unsupported_noHandler h⟩
  | illegalFunction =>
    exact ⟨.answer (.exception _) s.randIn s.freeCount, rfl, fun _ _ => exec_unsupported_illegalFunction h⟩

/-! ### FC 0x03 and FC 0x04: the words and what their draws leave -/

/-- A source of register words draws from the inputs alone: its words, and the supply and the index it leaves, are the same
whatever `DUTY` and `TRIG` are, and it changes nothing else (R28). -/
def DrawsInputsOnly (words : Nat → State → List Word × State) : Prop :=
  ∀ (n : Nat) (s : State), ∃ ws randIn freeCount, ∀ d b,
    words n (s.withDutyTrig d b) = (ws, { s.withDutyTrig d b with randIn := randIn, freeCount := freeCount })

theorem holdWords_drawsInputsOnly : DrawsInputsOnly holdWords := by
  intro n s
  cases h : s.distIn with
  | some w =>
    exact ⟨List.replicate n w, s.randIn, s.freeCount, fun _ _ => by simp [holdWords, drawDist, State.withDutyTrig, h]⟩
  | none =>
    exact ⟨List.replicate n (Config.freeDist s.freeCount), s.randIn, s.freeCount + 1,
      fun _ _ => by simp [holdWords, drawDist, State.withDutyTrig, h]⟩

/-- One draw of `RAND`, whatever `DUTY` and `TRIG` are. -/
theorem drawRand_withDutyTrig (s : State) (d : Byte) (b : Bool) :
    drawRand (s.withDutyTrig d b) = ((drawRand s).1, (drawRand s).2.withDutyTrig d b) := by
  cases h : s.randIn <;> simp [drawRand, State.withDutyTrig, h]

theorem drawRands_withDutyTrig (n : Nat) (s : State) (d : Byte) (b : Bool) :
    drawRands n (s.withDutyTrig d b) = ((drawRands n s).1, (drawRands n s).2.withDutyTrig d b) := by
  induction n generalizing s with
  | zero => rfl
  | succ n ih => simp only [drawRands, drawRand_withDutyTrig, ih]

theorem inputWords_drawsInputsOnly : DrawsInputsOnly inputWords := by
  intro n s
  refine ⟨(drawRands n s).1, s.randIn.drop n, s.freeCount + (n - s.randIn.length), fun d b => ?_⟩
  rw [inputWords, drawRands_withDutyTrig, (drawRands_frame n s).1]
  rfl

/-- A register read answers a reply of its own and leaves what its draws leave, on success, on an exception and with the
trailer of R134. -/
theorem readRegisters_answers {words : Nat → State → List Word × State} (hw : DrawsInputsOnly words)
    (addr wordCount : Word) (i : Instr) (s : State) :
    ∃ r randIn freeCount, ∀ d b, readRegisters words addr wordCount (openTxn i (s.withDutyTrig d b)) =
      .next ((Effect.answer r randIn freeCount).apply (s.withDutyTrig d b)) := by
  by_cases h : addr.toNat + wordCount.toNat > Config.regExtent
  · cases ht : s.params.regErrorTrailer with
    | suppress =>
      refine ⟨.exception [i.unit, i.fc ||| 0x80#8, exceptionCode .outOfRange], s.randIn, s.freeCount, fun d b => ?_⟩
      have ht' : (openTxn i (s.withDutyTrig d b)).params.regErrorTrailer = .suppress := ht
      simp only [readRegisters, if_pos h, ht']
      exact raise_openTxn _ _ _
    | append =>
      obtain ⟨ws, randIn, freeCount, hws⟩ := hw wordCount.toNat
        (setError i.unit i.fc (exceptionCode .outOfRange) (openTxn i s))
      refine ⟨.exception ([i.unit, i.fc ||| 0x80#8, exceptionCode .outOfRange] ++
        [i.unit, i.fc, BitVec.ofNat 8 (2 * wordCount.toNat)] ++ ws.flatMap wordBytes),
        randIn, freeCount, fun d b => ?_⟩
      have ht' : (openTxn i (s.withDutyTrig d b)).params.regErrorTrailer = .append := ht
      have hws' : words wordCount.toNat (setError i.unit i.fc (exceptionCode .outOfRange)
        (openTxn i (s.withDutyTrig d b))) = _ := hws d b
      simp only [readRegisters, if_pos h, ht', addRegisters, openTxn_txn_unit, openTxn_txn_fc, hws', addWords_eq]
      rfl
  · obtain ⟨ws, randIn, freeCount, hws⟩ := hw wordCount.toNat (openTxn i s)
    refine ⟨.success ([i.unit, i.fc, BitVec.ofNat 8 (2 * wordCount.toNat)] ++ ws.flatMap wordBytes),
      randIn, freeCount, fun d b => ?_⟩
    have hws' : words wordCount.toNat (openTxn i (s.withDutyTrig d b)) = _ := hws d b
    simp only [readRegisters, if_neg h, addRegisters, hws', addWords_eq]
    rfl

theorem readHoldRegister_effect (unit : Byte) (addr wordCount : Word) (s : State) :
    ∃ e : Effect, e.IsOf (.readHoldRegister unit addr wordCount) s := by
  obtain ⟨r, randIn, freeCount, h⟩ := readRegisters_answers holdWords_drawsInputsOnly addr wordCount
    (.readHoldRegister unit addr wordCount) s
  exact ⟨.answer r randIn freeCount, Bool.and_false _, h⟩

theorem readInputRegister_effect (unit : Byte) (addr wordCount : Word) (s : State) :
    ∃ e : Effect, e.IsOf (.readInputRegister unit addr wordCount) s := by
  obtain ⟨r, randIn, freeCount, h⟩ := readRegisters_answers inputWords_drawsInputsOnly addr wordCount
    (.readInputRegister unit addr wordCount) s
  exact ⟨.answer r randIn freeCount, Bool.and_false _, h⟩

/-! ### Every request -/

/-- Every request has an effect, in every state (R133). -/
theorem exec_effect (i : Instr) (s : State) : ∃ e : Effect, e.IsOf i s := by
  cases i with
  | readCoil unit start count => exact readCoil_effect unit start count s
  | readHoldRegister unit addr wordCount => exact readHoldRegister_effect unit addr wordCount s
  | readInputRegister unit addr wordCount => exact readInputRegister_effect unit addr wordCount s
  | writeCoil unit coilIndex code => exact writeCoil_effect unit coilIndex code s
  | writeHoldRegister unit addr value => exact writeHoldRegister_effect unit addr value s
  | writeMultCoils unit start count byteCount packed => exact writeMultCoils_effect unit start count byteCount packed s
  | unsupported unit fc => exact unsupported_effect unit fc s

theorem Effect.IsOf.exec_eq {e : Effect} (h : e.IsOf i s) : exec i s = .next (e.apply s) := h.2 s.duty s.trig

/-- The next state of a request is what its effect leaves. -/
theorem exec_cases (h : exec i s = .next t) : ∃ e : Effect, e.IsOf i s ∧ t = e.apply s := by
  obtain ⟨e, he⟩ := exec_effect i s
  rw [he.exec_eq, Host.Outcome.next.injEq] at h
  exact ⟨e, he, h.symm⟩

/-! ### What every effect keeps -/

@[simp] theorem Effect.apply_params (e : Effect) (s : State) : (e.apply s).params = s.params := by cases e <;> rfl
@[simp] theorem Effect.apply_pending (e : Effect) (s : State) : (e.apply s).pending = s.pending := by cases e <;> rfl
@[simp] theorem Effect.apply_txn (e : Effect) (s : State) : (e.apply s).txn = Txn.idle := by cases e <;> rfl

/-- `TRIG` after a request: set by a successful write and otherwise as it was (R27). -/
theorem Effect.apply_trig {e : Effect} {r : Reply} (ha : e.Allowed i s)
    (hr : (e.apply s).portOut = some (.response r)) :
    (e.apply s).trig = (s.trig || (isSuccess r && writesState i)) := by
  cases e with
  | answer r' randIn freeCount =>
    obtain rfl : r' = r := by simpa [Effect.apply] using hr
    have ha : (isSuccess r' && writesState i) = false := ha
    simp [Effect.apply, ha]
  | setCoils cb rsp =>
    obtain rfl : .success rsp = r := by simpa [Effect.apply] using hr
    simp [Effect.apply, isSuccess, ha.1]
  | setDuty duty rsp =>
    obtain rfl : .success rsp = r := by simpa [Effect.apply] using hr
    obtain ⟨unit, value, rfl, -⟩ := ha
    simp [Effect.apply, isSuccess, writesState]

/-- No effect clears `TRIG` (R27). -/
theorem Effect.apply_keeps_trig (e : Effect) (h : s.trig = true) : (e.apply s).trig = true := by
  cases e <;> simp [Effect.apply, h]

/-- An effect that changes `DUTY` is that of a write of holding address 0. -/
theorem Effect.apply_duty_ne {e : Effect} (h : (e.apply s).duty ≠ s.duty) : ∃ d rsp, e = .setDuty d rsp := by
  cases e with
  | answer | setCoils => exact absurd rfl h
  | setDuty d rsp => exact ⟨d, rsp, rfl⟩

/-- An effect that changes the coil buffer is that of a successful coil write. -/
theorem Effect.apply_cb_ne {e : Effect} (h : (e.apply s).cb ≠ s.cb) : ∃ cb rsp, e = .setCoils cb rsp := by
  cases e with
  | answer | setDuty => exact absurd rfl h
  | setCoils cb rsp => exact ⟨cb, rsp, rfl⟩

/-- `TRIG` takes no part in an effect on anything else. -/
theorem Effect.apply_of_trig (e : Effect) (s : State) (b : Bool) :
    ∃ b', e.apply { s with trig := b } = { e.apply s with trig := b' } := by
  cases e with
  | answer => exact ⟨b, rfl⟩
  | setCoils | setDuty => exact ⟨true, rfl⟩

/-- `DUTY` takes no part in an effect on anything else. -/
theorem Effect.apply_of_duty (e : Effect) (s : State) (d : Byte) :
    ∃ d', e.apply { s with duty := d } = { e.apply s with duty := d' } := by
  cases e with
  | answer | setCoils => exact ⟨d, rfl⟩
  | setDuty duty => exact ⟨duty, rfl⟩

end Effects

/-! ## What one step does -/

/-- The state `t` that an operation taken in `s` leaves, one constructor per kind of operation; a request is decoded or is
outside the length contract (R79). -/
inductive Performs (s : State) : Operation → State → Prop where
  | request {body : List Byte} {i : Instr} {e : Effect} (hd : decode body = .request i) (he : e.IsOf i s) :
      Performs s (.request body) (e.apply s)
  | refused {body : List Byte} {r : DecodeReject} (hd : decode body = .reject r) :
      Performs s (.request body) (emitRefused s)
  | takeTrigger : Performs s .takeTrigger (takeTrigger s)
  | reset : Performs s .reset (resetBlock s)
  | driveDist (d : Word) : Performs s (.driveDist d) (driveDist d s)
  | driveRand (draws : List Config.RandDraw) : Performs s (.driveRand draws) (driveRand draws s)
  | driveSfault (b : Bool) : Performs s (.driveSfault b) (driveSfault b s)

section Steps

variable {s t : State} {op : Operation} {rest : List Operation}

theorem transaction_request {body : List Byte} {i : Instr} (hd : decode body = .request i) :
    transaction body s = exec i s := by
  simp only [transaction, hd]

theorem transaction_reject {body : List Byte} {r : DecodeReject} (hd : decode body = .reject r) :
    transaction body s = .next (emitRefused s) := by
  simp only [transaction, hd]

/-- Every operation is performed to its end (R58, R186). -/
theorem perform_completes (op : Operation) (s : State) : ∃ t, perform op s = .next t ∧ Performs s op t := by
  cases op with
  | request body =>
    cases hd : decode body with
    | request i =>
      obtain ⟨e, he⟩ := exec_effect i s
      exact ⟨_, (transaction_request hd).trans he.exec_eq, .request hd he⟩
    | reject r => exact ⟨_, transaction_reject hd, .refused hd⟩
  | takeTrigger => exact ⟨_, rfl, .takeTrigger⟩
  | reset => exact ⟨_, rfl, .reset⟩
  | driveDist d => exact ⟨_, rfl, .driveDist d⟩
  | driveRand draws => exact ⟨_, rfl, .driveRand draws⟩
  | driveSfault b => exact ⟨_, rfl, .driveSfault b⟩

theorem step_idle (hl : s.params.legal = true) (hp : s.pending = []) : step s = .next s := by
  simp only [step, advance, hl, hp, if_true]

theorem step_pending (hl : s.params.legal = true) (hp : s.pending = op :: rest) :
    step s = perform op { s with pending := rest } := by
  simp only [step, advance, hl, hp, if_true]

theorem step_illegal (hl : s.params.legal = false) : step s = .refused .illegalCapacity := by
  simp only [step, advance, hl, Bool.false_eq_true, if_false]

/-- Everything a step can do: nothing when nothing is pending, or the oldest pending operation. -/
theorem step_cases (h : step s = .next t) :
    (s.pending = [] ∧ t = s) ∨
      ∃ op rest, s.pending = op :: rest ∧ Performs { s with pending := rest } op t := by
  cases hl : s.params.legal with
  | false => rw [step_illegal hl] at h; cases h
  | true =>
    cases hp : s.pending with
    | nil =>
      rw [step_idle hl hp, Host.Outcome.next.injEq] at h
      exact .inl ⟨rfl, h.symm⟩
    | cons op rest =>
      obtain ⟨t', ht', hperf⟩ := perform_completes op { s with pending := rest }
      rw [step_pending hl hp, ht', Host.Outcome.next.injEq] at h
      exact .inr ⟨op, rest, rfl, h ▸ hperf⟩

/-- No operation changes a parameter or what is pending behind it. -/
theorem Performs.params_pending (h : Performs s op t) : t.params = s.params ∧ t.pending = s.pending := by
  cases h <;> simp

/-- Only `TAKE_TRIGGER` and reset clear `TRIG` (R27). -/
theorem Performs.clears_trig (h : Performs s op t) (hs : s.trig = true) (ht : t.trig = false) :
    op = .takeTrigger ∨ op = .reset := by
  cases h with
  | takeTrigger => exact .inl rfl
  | reset => exact .inr rfl
  | request hd he => exact absurd (ht.symm.trans (Effect.apply_keeps_trig _ hs)) Bool.false_ne_true
  | refused | driveDist | driveRand | driveSfault => simp [hs] at ht

/-- What changes `DUTY` (R25, R131). -/
theorem Performs.changes_duty (h : Performs s op t) (hne : t.duty ≠ s.duty) :
    (op = .reset ∧ t.duty = s.params.dutyReset) ∨
      ∃ body unit value, op = .request body ∧ decode body = .request (.writeHoldRegister unit 0#16 value) ∧
        t.duty = clampDuty value := by
  cases h with
  | reset => exact .inl ⟨rfl, rfl⟩
  | request hd he =>
    obtain ⟨d, rsp, rfl⟩ := Effect.apply_duty_ne hne
    obtain ⟨unit, value, rfl, rfl⟩ := he.1
    exact .inr ⟨_, unit, value, rfl, hd, rfl⟩
  | refused | takeTrigger | driveDist | driveRand | driveSfault => exact absurd rfl hne

/-- What changes the coil buffer (R24). -/
theorem Performs.changes_cb (h : Performs s op t) (hne : t.cb ≠ s.cb) :
    op = .reset ∨ ∃ body i b, op = .request body ∧ decode body = .request i ∧
      (i.fc = 0x05#8 ∨ i.fc = 0x0F#8) ∧ t.portOut = some (.response (.success b)) := by
  cases h with
  | reset => exact .inl rfl
  | request hd he =>
    obtain ⟨cb, rsp, rfl⟩ := Effect.apply_cb_ne hne
    obtain ⟨-, hfc, -⟩ := he.1
    exact .inr ⟨_, _, rsp, rfl, hd, hfc, rfl⟩
  | refused | takeTrigger | driveDist | driveRand | driveSfault => exact absurd rfl hne

/-! ## The invariant -/

@[simp] theorem Memory.coil_nil (i : Nat) : Memory.coil [] i = false := by simp [Memory.coil]

theorem construct_inv {p : Config.Params} (hp : p.legal = true) : (State.construct p).Inv where
  capacity_legal := hp
  buffer_canonical := Memory.wf_nil
  pad_bits_zero i _ := Memory.coil_nil i
  no_transaction := rfl

/-- The invariant speaks of the parameters, the coil buffer and the transaction alone. -/
theorem State.Inv.of_same (h : s.Inv) (hp : t.params = s.params) (hcb : t.cb = s.cb) (htx : t.txn = Txn.idle) :
    t.Inv where
  capacity_legal := hp ▸ h.capacity_legal
  buffer_canonical := hcb ▸ h.buffer_canonical
  pad_bits_zero i hi := by rw [State.coil, hcb]; exact h.pad_bits_zero i (hp ▸ hi)
  no_transaction := htx

theorem Effect.apply_inv {i : Instr} {e : Effect} (h : s.Inv) (ha : e.Allowed i s) : (e.apply s).Inv := by
  cases e with
  | answer | setDuty => exact h.of_same rfl rfl rfl
  | setCoils cb rsp =>
    obtain ⟨-, -, hcb⟩ := ha
    obtain ⟨hwf, hpad⟩ := hcb h.buffer_canonical
    exact ⟨h.capacity_legal, hwf, fun j hj => (hpad j hj).trans (h.pad_bits_zero j hj), rfl⟩

theorem Performs.inv (h : Performs s op t) (hs : s.Inv) : t.Inv := by
  cases h with
  | request hd he => exact Effect.apply_inv hs he.1
  | refused => exact hs.of_same rfl rfl rfl
  | reset => exact ⟨hs.capacity_legal, Memory.wf_nil, fun i _ => Memory.coil_nil i, hs.no_transaction⟩
  | takeTrigger | driveDist | driveRand | driveSfault => exact hs.of_same rfl rfl hs.no_transaction

theorem step_inv (hs : s.Inv) (h : step s = .next t) : t.Inv := by
  obtain ⟨-, rfl⟩ | ⟨op, rest, -, hperf⟩ := step_cases h
  · exact hs
  · exact hperf.inv (hs.of_same rfl rfl hs.no_transaction)

/-- A block constructed with legal parameters always has a next state (R186). -/
theorem step_completes (hl : s.params.legal = true) : ∃ t, step s = .next t := by
  cases hp : s.pending with
  | nil => exact ⟨s, step_idle hl hp⟩
  | cons op rest =>
    obtain ⟨t, ht, -⟩ := perform_completes op { s with pending := rest }
    exact ⟨t, (step_pending hl hp).trans ht⟩

end Steps

/-! ## The coil store right after reset, and `DUTY`'s clamp -/

theorem packByte_zero : (packByte fun _ => false) = 0#8 := rfl

/-- An empty buffer packs to zero bytes (R34, R92). -/
theorem Memory.packCoils_nil (start count : Nat) :
    Memory.packCoils [] start count = List.replicate (ceilDiv8 count) 0#8 := by
  simp [Memory.packCoils, packByte_zero]

/-- `DUTY` takes `min(value, 255)` (R140). -/
theorem clampDuty_toNat (value : Word) : (clampDuty value).toNat = min value.toNat 255 := by
  rw [clampDuty, BitVec.toNat_ofNat]
  exact Nat.mod_eq_of_lt (lt_of_le_of_lt (Nat.min_le_right _ _) (by decide))

/-- A READ_COIL of the whole store right after reset (R34). -/
theorem exec_readCoil_construct {p : Config.Params} (hp : p.legal = true) (unit : Byte) :
    exec (.readCoil unit 0#16 (BitVec.ofNat 16 p.capacity)) (State.construct p) =
      .next (emitReply (.success ([unit, 0x01#8, BitVec.ofNat 8 ((p.capacity + 7) / 8)] ++
        List.replicate ((p.capacity + 7) / 8) 0#8)) (State.construct p)) := by
  have hle := ((params_legal_iff p).1 hp).2
  have hcount : (BitVec.ofNat 16 p.capacity).toNat = p.capacity := by
    rw [BitVec.toNat_ofNat]
    exact Nat.mod_eq_of_lt (by omega)
  have hrange : (0#16).toNat + (BitVec.ofNat 16 p.capacity).toNat ≤ (State.construct p).params.capacity := by
    rw [hcount]
    exact (Nat.zero_add _).le
  have hcb : (State.construct p).cb = [] := rfl
  rw [exec_readCoil_inRange hrange, hcount, hcb, Memory.packCoils_nil]

/-! ## The obligations -/

/-- Settles O39: a step performs nothing or one operation, and every operation keeps the invariant. -/
theorem stepKeepsInvariant : Obligations.StepKeepsInvariant :=
  fun _ _ hs h => step_inv hs h

/-- Settles O48: with legal parameters a step completes, and O39's lemma gives the invariant after it. -/
theorem stepCompletesWithInvariant : Obligations.StepCompletesWithInvariant := by
  intro s hs
  obtain ⟨t, ht⟩ := step_completes hs.capacity_legal
  exact ⟨t, ht, step_inv hs ht⟩

/-- Settles O23: the buffer after reset is empty, and an empty buffer reads and packs to zeros. -/
theorem stateAfterReset : Obligations.StateAfterReset :=
  ⟨fun _ => ⟨Memory.coil_nil, Memory.read_nil, rfl, rfl, exec_readCoil_construct⟩, rfl, rfl⟩

/-- Settles O42, from the effects of requests and the operations that clear `TRIG`. -/
theorem triggerFlagRules : Obligations.TriggerFlagRules := by
  refine ⟨fun i s t r h hr => ?_, fun req r s t hd h => ?_, fun s t h hs ht => ?_, fun s rest hl hp => ?_,
    fun i s t b h => ?_⟩
  · obtain ⟨e, he, rfl⟩ := exec_cases h
    exact Effect.apply_trig he.1 hr
  · rw [transaction_reject hd, Host.Outcome.next.injEq] at h
    rw [← h, emitRefused_trig]
  · obtain ⟨-, rfl⟩ | ⟨op, rest, hp, hperf⟩ := step_cases h
    · simp [hs] at ht
    · obtain rfl | rfl := hperf.clears_trig hs ht
      · exact ⟨rest, .inl hp⟩
      · exact ⟨rest, .inr hp⟩
  · obtain hp | hp := hp
    · exact ⟨_, step_pending hl hp, rfl⟩
    · exact ⟨_, step_pending hl hp, rfl⟩
  · obtain ⟨e, ⟨-, he⟩, rfl⟩ := exec_cases h
    obtain ⟨b', hb'⟩ := e.apply_of_trig s b
    exact ⟨b', (he s.duty b).trans (congrArg _ hb')⟩

/-- Settles O43, from the operations that change `DUTY` and from the effects of requests. -/
theorem onlyHoldingAddressZeroWritesDuty : Obligations.OnlyHoldingAddressZeroWritesDuty := by
  refine ⟨fun s t h hne => ?_, fun i s t d h => ?_⟩
  · obtain ⟨-, rfl⟩ | ⟨op, rest, hp, hperf⟩ := step_cases h
    · exact absurd rfl hne
    · obtain ⟨rfl, hd⟩ | ⟨body, unit, value, rfl, hdec, hd⟩ := hperf.changes_duty hne
      · exact ⟨rest, .inl ⟨hp, hd⟩⟩
      · exact ⟨rest, .inr ⟨body, unit, value, hp, hdec, hd ▸ clampDuty_toNat value⟩⟩
  · obtain ⟨e, ⟨-, he⟩, rfl⟩ := exec_cases h
    obtain ⟨d', hd'⟩ := e.apply_of_duty s d
    exact ⟨d', (he d s.trig).trans (congrArg _ hd')⟩

/-- Settles O44, from the operations that change the coil buffer. -/
theorem onlyCoilWritesChangeCoils : Obligations.OnlyCoilWritesChangeCoils := by
  intro s t h hne
  obtain ⟨-, rfl⟩ | ⟨op, rest, hp, hperf⟩ := step_cases h
  · exact absurd rfl hne
  · obtain rfl | ⟨body, i, b, rfl, hwrite⟩ := hperf.changes_cb hne
    · exact ⟨rest, .inl hp⟩
    · exact ⟨rest, .inr ⟨body, i, b, hp, hwrite⟩⟩

/-- Settles O45: no operation touches the parameters or what is pending behind it. -/
theorem parametersAndOrderAreKept : Obligations.ParametersAndOrderAreKept := by
  intro s t h
  obtain ⟨hp, rfl⟩ | ⟨op, rest, hp, hperf⟩ := step_cases h
  · exact ⟨rfl, by rw [hp, List.tail_nil]⟩
  · obtain ⟨hparams, hpending⟩ := hperf.params_pending
    exact ⟨hparams, by rw [hpending, hp, List.tail_cons]⟩

/-- Settles O38; the defaults of R7 are legal parameters. -/
theorem resetStateHasInvariant : Obligations.ResetStateHasInvariant :=
  ⟨fun _ hp => construct_inv hp, construct_inv (by decide)⟩

end Sys2Proof.Machine

/-! ## Runs, and writes that are repeated -/

namespace Sys2Proof.Machine

/-! ### Writing what the buffer already holds -/

/-- In canonical form a byte written as it reads leaves the buffer: an entry is replaced by itself, and `0x00` adds no
entry. -/
theorem Memory.write_read_self {m : Memory} (h : m.wf) (a : Nat) : m.write a (m.read a) = m := by
  induction m with
  | nil => rfl
  | cons c m ih =>
    obtain ⟨hp, hz⟩ := h
    obtain ⟨hhead, -⟩ := List.pairwise_cons.1 hp
    obtain hlt | heq | hgt := lt_trichotomy a c.1
    · have hread : Memory.read (c :: m) a = 0#8 :=
        Memory.read_below (List.forall_mem_cons.2 ⟨hlt, fun d hd => hlt.trans (hhead d hd)⟩)
      rw [hread, Memory.write, if_pos hlt, if_pos rfl]
    · have hne : c.2 ≠ 0#8 := hz c List.mem_cons_self
      simp [Memory.write, Memory.read, heq, hne]
    · simp only [Memory.write, Memory.read, if_neg hgt.not_gt, if_neg hgt.ne, ih (Memory.wf_tail ⟨hp, hz⟩)]

theorem setBit_getLsbD_self (b : Byte) {k : Nat} (hk : k < 8) : setBit b k (b.getLsbD k) = b := by
  refine BitVec.eq_of_getLsbD_eq fun j _ => ?_
  rw [setBit_getLsbD b hk]
  split
  · next hjk => rw [hjk]
  · rfl

theorem Memory.setCoil_coil_self {m : Memory} (h : m.wf) (i : Nat) : m.setCoil i (m.coil i) = m := by
  rw [Memory.setCoil, Memory.coil, setBit_getLsbD_self _ (Nat.mod_lt _ (by decide)), Memory.write_read_self h]

/-- A range write of the values its coils already have leaves the buffer. -/
theorem Memory.unpackCoils_of_coil_eq {m : Memory} (h : m.wf) {start : Nat} {run : List Byte} {n : Nat}
    (hrun : ∀ k < n, m.coil (start + k) = runBit run k) : m.unpackCoils start run n = m := by
  induction n with
  | zero => rfl
  | succ n ih =>
    have hn : m.unpackCoils start run n = m := ih fun k hk => hrun k (Nat.lt_succ_of_lt hk)
    rw [Memory.unpackCoils, hn, ← hrun n n.lt_succ_self, Memory.setCoil_coil_self h]

theorem Memory.setCoil_setCoil {m : Memory} (h : m.wf) (i : Nat) (v : Bool) :
    (m.setCoil i v).setCoil i v = m.setCoil i v := by
  have hv : (m.setCoil i v).coil i = v := (Memory.coil_setCoil h i v i).trans (if_pos rfl)
  simpa only [hv] using Memory.setCoil_coil_self (Memory.wf_setCoil h i v) i

theorem Memory.unpackCoils_unpackCoils {m : Memory} (h : m.wf) (start : Nat) (run : List Byte) (n : Nat) :
    (m.unpackCoils start run n).unpackCoils start run n = m.unpackCoils start run n := by
  refine Memory.unpackCoils_of_coil_eq (Memory.wf_unpackCoils h start run n) fun k hk => ?_
  rw [Memory.coil_unpackCoils h, if_pos ⟨Nat.le_add_right _ _, Nat.add_lt_add_left hk _⟩, Nat.add_sub_cancel_left]

/-! ### When a write succeeds -/

section SuccessfulWrites

variable {unit : Byte} {s t : State} {b : List Byte}

/-- Taking an exception is no success (R186). -/
theorem raise_not_success {k : ErrorKind} (h : raise k s = .next t) :
    t.portOut ≠ some (.response (.success b)) := by
  rw [raise_eq, Host.Outcome.next.injEq] at h
  simp [← h]

/-- A WRITE_COIL that succeeds has passed the checks of value code, index and storage (R130). -/
theorem exec_writeCoil_success {coilIndex code : Word} (h : exec (.writeCoil unit coilIndex code) s = .next t)
    (ht : t.portOut = some (.response (.success b))) :
    legalOnOffCode code = true ∧ coilIndex.toNat < s.params.capacity ∧ s.sfaultIn = false := by
  cases hc : legalOnOffCode code with
  | false => exact absurd ht (raise_not_success ((exec_writeCoil_badValue hc).symm.trans h))
  | true =>
    by_cases hi : coilIndex.toNat < s.params.capacity
    · cases hf : s.sfaultIn with
      | true => exact absurd ht (raise_not_success ((exec_writeCoil_storageFault hc hi hf).symm.trans h))
      | false => exact ⟨rfl, hi, rfl⟩
    · exact absurd ht (raise_not_success ((exec_writeCoil_outOfRange hc (Nat.not_lt.1 hi)).symm.trans h))

/-- A WRITE_HOLD_REGISTER that succeeds is one of address 0 (R131). -/
theorem exec_writeHoldRegister_success {addr value : Word}
    (h : exec (.writeHoldRegister unit addr value) s = .next t)
    (ht : t.portOut = some (.response (.success b))) : addr = 0#16 := by
  by_contra ha
  exact raise_not_success ((exec_writeHoldRegister_outOfRange ha).symm.trans h) ht

/-- A WRITE_MULT_COILS that succeeds has passed the checks of range, byte count, run length and storage (R132). -/
theorem exec_writeMultCoils_success {start count : Word} {byteCount : Byte} {packed : List Byte}
    (h : exec (.writeMultCoils unit start count byteCount packed) s = .next t)
    (ht : t.portOut = some (.response (.success b))) :
    ¬ (count = 0#16 ∨ s.params.capacity < start.toNat + count.toNat) ∧
      byteCount.toNat = declaredBytes count.toNat ∧ byteCount.toNat ≤ packed.length ∧ s.sfaultIn = false := by
  by_cases hr : count = 0#16 ∨ s.params.capacity < start.toNat + count.toNat
  · exact absurd ht (raise_not_success ((exec_writeMultCoils_outOfRange hr).symm.trans h))
  by_cases hb : byteCount.toNat = declaredBytes count.toNat
  · by_cases hp : byteCount.toNat ≤ packed.length
    · cases hf : s.sfaultIn with
      | true => exact absurd ht (raise_not_success ((exec_writeMultCoils_storageFault hr hb hp hf).symm.trans h))
      | false => exact ⟨hr, hb, hp, rfl⟩
    · rw [exec_writeMultCoils_runMissing hr hb (Nat.not_le.1 hp), Host.Outcome.next.injEq] at h
      simp [← h] at ht
  · exact absurd ht (raise_not_success ((exec_writeMultCoils_badByteCount hr hb).symm.trans h))

/-! ### A write repeated on the state it left

The checks read only what a write keeps, so the repetition passes them too; it then writes what is already there. -/

theorem exec_writeCoil_repeated {coilIndex code : Word} (hwf : s.cb.wf)
    (h : exec (.writeCoil unit coilIndex code) s = .next t) (ht : t.portOut = some (.response (.success b))) :
    exec (.writeCoil unit coilIndex code) t = .next t := by
  obtain ⟨hc, hi, hf⟩ := exec_writeCoil_success h ht
  rw [exec_writeCoil_writes hc hi hf, Host.Outcome.next.injEq] at h
  subst h
  rw [exec_writeCoil_writes hc, emitReply_cb, Memory.setCoil_setCoil hwf]
  exacts [rfl, hi, hf]

theorem exec_writeHoldRegister_repeated {addr value : Word}
    (h : exec (.writeHoldRegister unit addr value) s = .next t) (ht : t.portOut = some (.response (.success b))) :
    exec (.writeHoldRegister unit addr value) t = .next t := by
  obtain rfl := exec_writeHoldRegister_success h ht
  rw [exec_writeHoldRegister_writes, Host.Outcome.next.injEq] at h
  subst h
  exact exec_writeHoldRegister_writes

theorem exec_writeMultCoils_repeated {start count : Word} {byteCount : Byte} {packed : List Byte} (hwf : s.cb.wf)
    (h : exec (.writeMultCoils unit start count byteCount packed) s = .next t)
    (ht : t.portOut = some (.response (.success b))) :
    exec (.writeMultCoils unit start count byteCount packed) t = .next t := by
  obtain ⟨hr, hb, hp, hf⟩ := exec_writeMultCoils_success h ht
  rw [exec_writeMultCoils_writes hr hb hp hf, Host.Outcome.next.injEq] at h
  subst h
  rw [exec_writeMultCoils_writes _ hb hp, emitReply_cb, Memory.unpackCoils_unpackCoils hwf]
  exacts [rfl, hf, hr]

end SuccessfulWrites

/-! ### Runs -/

/-- The invariant holds at the start of every run, whatever is pending, and every step keeps it. -/
theorem Reachable.inv {s : State} (h : Reachable s) : s.Inv := by
  induction h with
  | start p ops hp => exact (construct_inv hp).of_same rfl rfl rfl
  | step _ hs ih => exact step_inv ih hs

/-! ### The obligations -/

/-- Settles O6: the oldest pending operation is performed, and a request that decodes is run by `exec`. -/
theorem stepRunsDecodedRequest : Obligations.StepRunsDecodedRequest :=
  fun _ _ _ _ hl hp hd => (step_pending hl hp).trans (transaction_request hd)

/-- Settles O40: every reachable state has the invariant, and the legal parameters in it are all that a step needs. -/
theorem everyRunCompletes : Obligations.EveryRunCompletes :=
  fun _ h => ⟨h.inv, step_completes h.inv.capacity_legal⟩

/-- Settles O47, one function code that writes at a time. -/
theorem repeatedWriteChangesNothing : Obligations.RepeatedWriteChangesNothing := by
  intro i s t b hwf hw h ht
  cases i with
  | writeCoil => exact exec_writeCoil_repeated hwf h ht
  | writeHoldRegister => exact exec_writeHoldRegister_repeated h ht
  | writeMultCoils => exact exec_writeMultCoils_repeated hwf h ht
  | readCoil | readHoldRegister | readInputRegister | unsupported => exact absurd hw Bool.false_ne_true

end Sys2Proof.Machine

/-! ## What the decoder reads, format by format -/

namespace Sys2Proof

/-- The function codes whose fixed fields are two 16-bit words, each with the request it stands for (R69 to R72). -/
inductive TwoWordFormat : Byte → (Byte → Word → Word → Instr) → Prop where
  | readCoil : TwoWordFormat 0x01#8 .readCoil
  | readHoldRegister : TwoWordFormat 0x03#8 .readHoldRegister
  | readInputRegister : TwoWordFormat 0x04#8 .readInputRegister
  | writeCoil : TwoWordFormat 0x05#8 .writeCoil
  | writeHoldRegister : TwoWordFormat 0x06#8 .writeHoldRegister

/-- A supported code has two words, or is FC 0x0F. -/
theorem supportedCodes_cases {fc : Byte} (h : fc ∈ supportedCodes) : (∃ mk, TwoWordFormat fc mk) ∨ fc = 0x0F#8 := by
  simp only [supportedCodes, List.mem_cons, List.not_mem_nil, or_false] at h
  obtain rfl | rfl | rfl | rfl | rfl | rfl := h
  exacts [.inl ⟨_, .readCoil⟩, .inl ⟨_, .readHoldRegister⟩, .inl ⟨_, .readInputRegister⟩, .inl ⟨_, .writeCoil⟩,
    .inl ⟨_, .writeHoldRegister⟩, .inr rfl]

theorem twoWordFormat_of_mem {fc : Byte} (h : fc ∈ [0x01#8, 0x03#8, 0x04#8, 0x05#8, 0x06#8]) :
    ∃ mk, TwoWordFormat fc mk := by
  obtain hf | rfl := supportedCodes_cases (List.mem_append_left [0x0F#8] h)
  · exact hf
  · exact absurd h (by decide)

section Formats

variable {fc : Byte} {mk : Byte → Word → Word → Instr} {req : List Byte}

/-! ### The fields are there -/

theorem decode_twoWords (h : TwoWordFormat fc mk) (u a b c d : Byte) (tl : List Byte) :
    decode (u :: fc :: a :: b :: c :: d :: tl) = .request (mk u (wordOfBytes a b) (wordOfBytes c d)) := by
  cases h <;> rfl

theorem decode_multCoils (u a b c d e : Byte) (tl : List Byte) :
    decode (u :: 0x0F#8 :: a :: b :: c :: d :: e :: tl) =
      .request (.writeMultCoils u (wordOfBytes a b) (wordOfBytes c d) e (tl.take e.toNat)) := rfl

/-- No byte behind an unsupported code is read (R77). -/
theorem decode_unsupported (h : fc ∉ supportedCodes) (u : Byte) (tl : List Byte) :
    decode (u :: fc :: tl) = .request (.unsupported u fc) := by
  simp only [supportedCodes, List.mem_cons, List.not_mem_nil, or_false, not_or] at h
  obtain ⟨h01, h03, h04, h05, h06, h0F⟩ := h
  show decodeByCode u fc (u :: fc :: tl) 2 = _
  simp only [decodeByCode, h01, h03, h04, h05, h06, h0F, if_false]

/-! ### The request ends before them (R79) -/

theorem decode_noFunctionCode (h : req.length < 2) : decode req = .reject .noFunctionCode := by
  match req, h with
  | [], _ => rfl
  | [_], _ => rfl

theorem decode_twoWords_short (h : TwoWordFormat fc mk) (hfc : req[1]? = some fc) (hlen : req.length < 6) :
    decode req = .reject .fieldsMissing := by
  match req, hfc, hlen with
  | [_, _], rfl, _ | [_, _, _], rfl, _ | [_, _, _, _], rfl, _ | [_, _, _, _, _], rfl, _ => cases h <;> rfl

theorem decode_multCoils_short (hfc : req[1]? = some 0x0F#8) (hlen : req.length < 7) :
    decode req = .reject .fieldsMissing := by
  match req, hfc, hlen with
  | [_, _], rfl, _ | [_, _, _], rfl, _ | [_, _, _, _], rfl, _ | [_, _, _, _, _], rfl, _
  | [_, _, _, _, _, _], rfl, _ => rfl

/-! ### Bytes beyond them (R79) -/

theorem decode_append_twoWords (h : TwoWordFormat fc mk) (hfc : req[1]? = some fc) (hlen : req.length = 6)
    (extra : List Byte) : decode (req ++ extra) = decode req := by
  match req, hfc, hlen with
  | [u, _, a, b, c, d], rfl, _ => exact (decode_twoWords h u a b c d extra).trans (decode_twoWords h u a b c d []).symm

/-- A request that holds its whole declared run: what follows is not part of the run. -/
theorem decode_append_multCoils {bc : Byte} (hfc : req[1]? = some 0x0F#8) (hbc : req[6]? = some bc)
    (hlen : req.length = 7 + bc.toNat) (extra : List Byte) : decode (req ++ extra) = decode req := by
  match req, hfc, hbc, hlen with
  | u :: _ :: a :: b :: c :: d :: _ :: run, rfl, rfl, hlen =>
    have hrun : run.length = bc.toNat := by simp only [List.length_cons] at hlen; omega
    simp only [List.cons_append, decode_multCoils, ← hrun, List.take_left', List.take_length]

/-! ### Everything the decoder accepts -/

/-- `Reads req i`: `req` begins with the bytes of `i`'s format, and these are the fields of `i`. -/
inductive Reads : List Byte → Instr → Prop where
  | twoWords {fc : Byte} {mk : Byte → Word → Word → Instr} (h : TwoWordFormat fc mk) (u a b c d : Byte)
      (tl : List Byte) : Reads (u :: fc :: a :: b :: c :: d :: tl) (mk u (wordOfBytes a b) (wordOfBytes c d))
  | multCoils (u a b c d e : Byte) (tl : List Byte) : Reads (u :: 0x0F#8 :: a :: b :: c :: d :: e :: tl)
      (.writeMultCoils u (wordOfBytes a b) (wordOfBytes c d) e (tl.take e.toNat))
  | unsupported {fc : Byte} (h : fc ∉ supportedCodes) (u : Byte) (tl : List Byte) :
      Reads (u :: fc :: tl) (.unsupported u fc)

theorem Reads.decode_eq {i : Instr} (h : Reads req i) : decode req = .request i := by
  cases h with
  | twoWords h u a b c d tl => exact decode_twoWords h u a b c d tl
  | multCoils u a b c d e tl => exact decode_multCoils u a b c d e tl
  | unsupported h u tl => exact decode_unsupported h u tl

/-- Every request without a format is rejected. -/
theorem reads_or_reject (req : List Byte) : (∃ i, Reads req i) ∨ ∃ r, decode req = .reject r := by
  match req with
  | [] | [_] => exact .inr ⟨_, decode_noFunctionCode (by simp)⟩
  | u :: fc :: tl =>
    by_cases hfc : fc ∈ supportedCodes
    · obtain ⟨mk, h⟩ | rfl := supportedCodes_cases hfc
      · match tl with
        | a :: b :: c :: d :: tl => exact .inl ⟨_, .twoWords h u a b c d tl⟩
        | [] | [_] | [_, _] | [_, _, _] => exact .inr ⟨_, decode_twoWords_short h rfl (by simp)⟩
      · match tl with
        | a :: b :: c :: d :: e :: tl => exact .inl ⟨_, .multCoils u a b c d e tl⟩
        | [] | [_] | [_, _] | [_, _, _] | [_, _, _, _] => exact .inr ⟨_, decode_multCoils_short rfl (by simp)⟩
    · exact .inl ⟨_, .unsupported hfc u tl⟩

theorem decode_eq_request_iff {i : Instr} : decode req = .request i ↔ Reads req i := by
  refine ⟨fun h => ?_, Reads.decode_eq⟩
  obtain ⟨j, hj⟩ | ⟨r, hr⟩ := reads_or_reject req
  · obtain rfl : j = i := by simpa [hj.decode_eq] using h
    exact hj
  · simp [hr] at h

/-! ### Encoding -/

theorem TwoWordFormat.encode_eq (h : TwoWordFormat fc mk) (u : Byte) (x y : Word) :
    encode (mk u x y) = [u, fc, hiByte x, loByte x, hiByte y, loByte y] := by
  cases h <;> rfl

theorem TwoWordFormat.decode_encode (h : TwoWordFormat fc mk) (u : Byte) (x y : Word) :
    decode (encode (mk u x y)) = .request (mk u x y) := by
  rw [h.encode_eq, decode_twoWords h, wordOfBytes_hi_lo, wordOfBytes_hi_lo]

theorem decode_encode_multCoils (u : Byte) (start count : Word) (bc : Byte) (packed : List Byte) :
    decode (encode (.writeMultCoils u start count bc packed)) =
      .request (.writeMultCoils u start count bc (packed.take bc.toNat)) := by
  refine (decode_multCoils u (hiByte start) (loByte start) (hiByte count) (loByte count) bc packed).trans ?_
  rw [wordOfBytes_hi_lo, wordOfBytes_hi_lo]

theorem wf_unsupported_iff {u : Byte} : (Instr.unsupported u fc).wf = true ↔ fc ∉ supportedCodes := by
  simp [Instr.wf]

theorem wf_writeMultCoils_iff {u : Byte} {start count : Word} {bc : Byte} {packed : List Byte} :
    (Instr.writeMultCoils u start count bc packed).wf = true ↔ packed.length ≤ bc.toNat :=
  decide_eq_true_iff

end Formats

/-! ### The obligations about the decoder -/

/-- Settles O1: each format reads back the bytes it wrote, and a well-formed run is no longer than declared. -/
theorem decodeOfEncodedRequest : Obligations.DecodeOfEncodedRequest := by
  intro i hwf
  cases i with
  | readCoil u start count => exact TwoWordFormat.readCoil.decode_encode u start count
  | readHoldRegister u addr n => exact TwoWordFormat.readHoldRegister.decode_encode u addr n
  | readInputRegister u addr n => exact TwoWordFormat.readInputRegister.decode_encode u addr n
  | writeCoil u index code => exact TwoWordFormat.writeCoil.decode_encode u index code
  | writeHoldRegister u addr value => exact TwoWordFormat.writeHoldRegister.decode_encode u addr value
  | writeMultCoils u start count bc packed =>
    rw [decode_encode_multCoils, List.take_of_length_le (wf_writeMultCoils_iff.1 hwf)]
  | unsupported u fc => exact decode_unsupported (wf_unsupported_iff.1 hwf) u []

/-- Settles O2, one case for each way the decoder accepts. -/
theorem encodeOfDecodedRequest : Obligations.EncodeOfDecodedRequest := by
  intro req i hd
  cases decode_eq_request_iff.1 hd with
  | twoWords h u a b c d tl =>
    have henc := h.encode_eq u (wordOfBytes a b) (wordOfBytes c d)
    simp only [hiByte_wordOfBytes, loByte_wordOfBytes] at henc
    cases h <;> exact ⟨rfl, henc⟩
  | multCoils u a b c d e tl =>
    refine ⟨wf_writeMultCoils_iff.2 (List.length_take_le _ _), ?_⟩
    simp [encode, wordBytes, Nat.add_comm 7]
  | unsupported h u tl => exact ⟨wf_unsupported_iff.2 h, rfl⟩

/-- Settles O3: the equation of each format, with the value of a big-endian field. -/
theorem decodeReadsFieldsAtTheirOffsets : Obligations.DecodeReadsFieldsAtTheirOffsets := fun u a b c d e tl =>
  ⟨wordOfBytes a b, wordOfBytes c d, wordOfBytes_toNat a b, wordOfBytes_toNat c d,
    decode_twoWords .readCoil u a b c d tl, decode_twoWords .readHoldRegister u a b c d tl,
    decode_twoWords .readInputRegister u a b c d tl, decode_twoWords .writeCoil u a b c d tl,
    decode_twoWords .writeHoldRegister u a b c d tl, decode_multCoils u a b c d e tl,
    fun _ hfc => decode_unsupported hfc u tl⟩

/-- Settles O4: the equation of each format, at one request. -/
theorem sampleRequestsDecode : Obligations.SampleRequestsDecode :=
  ⟨decode_twoWords .readCoil _ _ _ _ _ _, decode_twoWords .readHoldRegister _ _ _ _ _ _,
    decode_twoWords .readInputRegister _ _ _ _ _ _, decode_twoWords .writeCoil _ _ _ _ _ _,
    decode_twoWords .writeHoldRegister _ _ _ _ _ _, decode_multCoils _ _ _ _ _ _ _,
    decode_unsupported (by decide) _ _⟩

end Sys2Proof

/-! ## Responses: their shape, and where the unit goes -/

namespace Sys2Proof.Machine

/-! ### FC 0x03 and FC 0x04, one equation per case (R128, R129, R134) -/

/-- `s` with another transaction in progress. -/
def State.withTxn (s : State) (x : Txn) : State := { s with txn := x }

/-- A source of register words neither reads nor writes the transaction. -/
def DrawsIgnoreTxn (words : Nat → State → List Word × State) : Prop :=
  ∀ (n : Nat) (s : State) (x : Txn), words n (s.withTxn x) = ((words n s).1, (words n s).2.withTxn x)

theorem holdWords_ignoresTxn : DrawsIgnoreTxn holdWords := by
  intro n s x
  cases h : s.distIn <;> simp [holdWords, drawDist, State.withTxn, h]

theorem drawRand_withTxn (s : State) (x : Txn) :
    drawRand (s.withTxn x) = ((drawRand s).1, (drawRand s).2.withTxn x) := by
  cases h : s.randIn <;> simp [drawRand, State.withTxn, h]

theorem inputWords_ignoresTxn : DrawsIgnoreTxn inputWords := by
  intro n
  induction n with
  | zero => exact fun _ _ => rfl
  | succ n ih =>
    intro s x
    have hrest := ih (drawRand s).2 x
    simp only [inputWords] at hrest
    simp only [inputWords, drawRands, drawRand_withTxn, hrest]

/-- What follows the header when a register read answers its words: the byte count, truncated to 8 bits, and the words
(R74). -/
def registerData (words : Nat → State → List Word × State) (wordCount : Word) (s : State) : List Byte :=
  BitVec.ofNat 8 (2 * wordCount.toNat) :: (words wordCount.toNat s).1.flatMap wordBytes

section Registers

variable {words : Nat → State → List Word × State} {addr wordCount : Word} {i : Instr} {s : State}

/-- What the words of a register read append to the response, and what their draws leave. -/
theorem addRegisters_withTxn (hw : DrawsIgnoreTxn words) (wordCount : Word) (s : State) (x : Txn) :
    addRegisters words wordCount (s.withTxn x) = (words wordCount.toNat s).2.withTxn { x with
      rsp := x.rsp ++ x.unit :: x.fc :: registerData words wordCount s } := by
  simp only [addRegisters, hw wordCount.toNat s x, addWords_eq]
  simp [add8, addRun, State.withTxn, registerData]

theorem readRegisters_inRange (hw : DrawsIgnoreTxn words) (h : addr.toNat + wordCount.toNat ≤ Config.regExtent) :
    readRegisters words addr wordCount (openTxn i s) =
      .next (emitReply (.success (i.unit :: i.fc :: registerData words wordCount s)) (words wordCount.toNat s).2) :=
  (if_neg (Nat.not_lt.2 h)).trans (congrArg (Host.Outcome.next ∘ emit) (addRegisters_withTxn hw wordCount s _))

theorem readRegisters_suppress (h : Config.regExtent < addr.toNat + wordCount.toNat)
    (ht : s.params.regErrorTrailer = .suppress) :
    readRegisters words addr wordCount (openTxn i s) = raise .outOfRange (openTxn i s) := by
  simp only [readRegisters, if_pos h, openTxn_params, ht]

/-- The trailer of R134: the whole success response behind the exception. -/
theorem readRegisters_append (hw : DrawsIgnoreTxn words) (h : Config.regExtent < addr.toNat + wordCount.toNat)
    (ht : s.params.regErrorTrailer = .append) :
    readRegisters words addr wordCount (openTxn i s) =
      .next (emitReply (.exception (i.unit :: (i.fc ||| 0x80#8) :: exceptionCode .outOfRange ::
        i.unit :: i.fc :: registerData words wordCount s)) (words wordCount.toNat s).2) := by
  simp only [readRegisters, if_pos h, openTxn_params, ht]
  exact congrArg (Host.Outcome.next ∘ emit) (addRegisters_withTxn hw wordCount s _)

end Registers

/-! ### A response without its header -/

/-- What a response holds besides the unit and the function code it echoes. -/
inductive ReplyBody where
  /-- What follows the header of a success response (R74). -/
  | success (data : List Byte)
  /-- The code of an exception response (R75), and what follows the second header when there is a trailer (R134). -/
  | exception (code : Byte) (trailer : Option (List Byte))
  | noHandler
  | refused

/-- The response to a request of unit `u` and function code `fc`. -/
def ReplyBody.reply (u fc : Byte) : ReplyBody → Reply
  | .success data => .success (u :: fc :: data)
  | .exception code none => .exception [u, fc ||| 0x80#8, code]
  | .exception code (some trailer) => .exception (u :: (fc ||| 0x80#8) :: code :: u :: fc :: trailer)
  | .noHandler => .noHandler
  | .refused => .refused

/-- An exception code is one of R182, and under `Suppress` nothing follows it (R134). -/
def ReplyBody.Legal (p : Config.Params) : ReplyBody → Prop
  | .exception code trailer => 1 ≤ code.toNat ∧ code.toNat ≤ 4 ∧ (p.regErrorTrailer = .suppress → trailer = none)
  | .success _ | .noHandler | .refused => True

/-- Under `Suppress` the unit stands in byte 0 of the response and nowhere else (R76). -/
theorem ReplyBody.replyToUnit_reply {b : ReplyBody} {p : Config.Params} (hb : b.Legal p)
    (hp : p.regErrorTrailer = .suppress) (u v fc : Byte) : replyToUnit u (b.reply v fc) = b.reply u fc := by
  cases b with
  | exception code trailer =>
    obtain ⟨-, -, htrailer⟩ := hb
    rw [htrailer hp]
    rfl
  | success | noHandler | refused => rfl

/-- A success response begins with the unit and the function code (R74). -/
theorem ReplyBody.reply_success {body : ReplyBody} {u fc : Byte} {bytes : List Byte}
    (h : body.reply u fc = .success bytes) : bytes.take 2 = [u, fc] := by
  cases body with
  | success data => cases h; rfl
  | exception code trailer => cases trailer <;> cases h
  | noHandler | refused => cases h

/-- An exception response is the three bytes of R75, and without a trailer nothing else. -/
theorem ReplyBody.reply_exception {body : ReplyBody} {p : Config.Params} (hb : body.Legal p) {u fc : Byte}
    {bytes : List Byte} (h : body.reply u fc = .exception bytes) :
    ∃ c : Byte, 1 ≤ c.toNat ∧ c.toNat ≤ 4 ∧ bytes.take 3 = [u, fc ||| 0x80#8, c] ∧
      (p.regErrorTrailer = .suppress → bytes.length = 3) := by
  cases body with
  | exception code trailer =>
    obtain ⟨hlow, hhigh, htrailer⟩ := hb
    refine ⟨code, hlow, hhigh, ?_⟩
    cases trailer with
    | none => cases h; exact ⟨rfl, fun _ => rfl⟩
    | some tail => cases h; exact ⟨rfl, fun hs => absurd (htrailer hs) (Option.some_ne_none tail)⟩
  | success | noHandler | refused => cases h

@[simp] theorem fromUnit_unit (u : Byte) (i : Instr) : (fromUnit u i).unit = u := by cases i <;> rfl
@[simp] theorem fromUnit_fc (u : Byte) (i : Instr) : (fromUnit u i).fc = i.fc := by cases i <;> rfl
@[simp] theorem fromUnit_self (i : Instr) : fromUnit i.unit i = i := by cases i <;> rfl

/-! ### What each request answers, from any unit -/

/-- From every unit the request `i` leaves the same state, but for the header of the response. -/
def Answers (i : Instr) (s : State) : Prop :=
  ∃ (b : ReplyBody) (t : State), b.Legal s.params ∧
    ∀ u, exec (fromUnit u i) s = .next (emitReply (b.reply u i.fc) t)

section Answers

variable {i : Instr} {s t : State}

/-- The exception codes of R181 are among those of R182. -/
theorem exceptionCode_range (k : ErrorKind) : 1 ≤ (exceptionCode k).toNat ∧ (exceptionCode k).toNat ≤ 4 := by
  cases k <;> decide

theorem answers_of_raise {k : ErrorKind} (h : ∀ u, exec (fromUnit u i) s = raise k (openTxn (fromUnit u i) s)) :
    Answers i s := by
  obtain ⟨hlow, hhigh⟩ := exceptionCode_range k
  refine ⟨.exception (exceptionCode k) none, s, ⟨hlow, hhigh, fun _ => rfl⟩, fun u => ?_⟩
  rw [h u, raise_openTxn, fromUnit_unit, fromUnit_fc]
  rfl

theorem readCoil_answers (unit : Byte) (start count : Word) (s : State) : Answers (.readCoil unit start count) s := by
  by_cases h : start.toNat + count.toNat ≤ s.params.capacity
  · exact ⟨.success _, s, trivial, fun _ => exec_readCoil_inRange h⟩
  · exact answers_of_raise fun _ => exec_readCoil_outOfRange (Nat.not_le.1 h)

/-- FC 0x03 and FC 0x04 differ in the source of their words alone (R135). -/
theorem answers_of_readRegisters {words : Nat → State → List Word × State} (hw : DrawsIgnoreTxn words)
    {addr wordCount : Word}
    (h : ∀ u, exec (fromUnit u i) s = readRegisters words addr wordCount (openTxn (fromUnit u i) s)) :
    Answers i s := by
  by_cases hr : addr.toNat + wordCount.toNat ≤ Config.regExtent
  · refine ⟨.success (registerData words wordCount s), (words wordCount.toNat s).2, trivial, fun u => ?_⟩
    rw [h u, readRegisters_inRange hw hr, fromUnit_unit, fromUnit_fc]
    rfl
  · cases ht : s.params.regErrorTrailer with
    | suppress => exact answers_of_raise fun u => (h u).trans (readRegisters_suppress (Nat.not_le.1 hr) ht)
    | append =>
      obtain ⟨hlow, hhigh⟩ := exceptionCode_range .outOfRange
      refine ⟨.exception (exceptionCode .outOfRange) (some (registerData words wordCount s)),
        (words wordCount.toNat s).2, ⟨hlow, hhigh, fun hs => ?_⟩, fun u => ?_⟩
      · simp [ht] at hs
      · rw [h u, readRegisters_append hw (Nat.not_le.1 hr) ht, fromUnit_unit, fromUnit_fc]
        rfl

theorem writeCoil_answers (unit : Byte) (coilIndex code : Word) (s : State) :
    Answers (.writeCoil unit coilIndex code) s := by
  cases hc : legalOnOffCode code with
  | false => exact answers_of_raise fun _ => exec_writeCoil_badValue hc
  | true =>
    by_cases h : coilIndex.toNat < s.params.capacity
    · cases hf : s.sfaultIn with
      | true => exact answers_of_raise fun _ => exec_writeCoil_storageFault hc h hf
      | false => exact ⟨.success _, _, trivial, fun _ => exec_writeCoil_writes hc h hf⟩
    · exact answers_of_raise fun _ => exec_writeCoil_outOfRange hc (Nat.not_lt.1 h)

theorem writeHoldRegister_answers (unit : Byte) (addr value : Word) (s : State) :
    Answers (.writeHoldRegister unit addr value) s := by
  by_cases h : addr = 0#16
  · subst h
    exact ⟨.success _, _, trivial, fun _ => exec_writeHoldRegister_writes⟩
  · exact answers_of_raise fun _ => exec_writeHoldRegister_outOfRange h

theorem writeMultCoils_answers (unit : Byte) (start count : Word) (byteCount : Byte) (packed : List Byte) (s : State) :
    Answers (.writeMultCoils unit start count byteCount packed) s := by
  by_cases h : count = 0#16 ∨ s.params.capacity < start.toNat + count.toNat
  · exact answers_of_raise fun _ => exec_writeMultCoils_outOfRange h
  by_cases hb : byteCount.toNat = declaredBytes count.toNat
  · by_cases hp : byteCount.toNat ≤ packed.length
    · cases hf : s.sfaultIn with
      | true => exact answers_of_raise fun _ => exec_writeMultCoils_storageFault h hb hp hf
      | false => exact ⟨.success _, _, trivial, fun _ => exec_writeMultCoils_writes h hb hp hf⟩
    · exact ⟨.refused, _, trivial, fun _ => exec_writeMultCoils_runMissing h hb (Nat.not_le.1 hp)⟩
  · exact answers_of_raise fun _ => exec_writeMultCoils_badByteCount h hb

theorem unsupported_answers (unit fc : Byte) (s : State) : Answers (.unsupported unit fc) s := by
  cases h : s.params.unsupportedFc with
  | noHandler => exact ⟨.noHandler, _, trivial, fun _ => exec_unsupported_noHandler h⟩
  | illegalFunction =>
    exact ⟨.exception illegalFunctionCode none, _, ⟨by decide, by decide, fun _ => rfl⟩,
      fun _ => exec_unsupported_illegalFunction h⟩

theorem exec_answers (i : Instr) (s : State) : Answers i s := by
  cases i with
  | readCoil unit start count => exact readCoil_answers unit start count s
  | readHoldRegister unit addr wordCount => exact answers_of_readRegisters holdWords_ignoresTxn fun _ => rfl
  | readInputRegister unit addr wordCount => exact answers_of_readRegisters inputWords_ignoresTxn fun _ => rfl
  | writeCoil unit coilIndex code => exact writeCoil_answers unit coilIndex code s
  | writeHoldRegister unit addr value => exact writeHoldRegister_answers unit addr value s
  | writeMultCoils unit start count byteCount packed => exact writeMultCoils_answers unit start count byteCount packed s
  | unsupported unit fc => exact unsupported_answers unit fc s

/-- The response a request left on the port, and what the same request from any other unit leaves. -/
theorem exec_answer_cases (h : exec i s = .next t) :
    ∃ b : ReplyBody, b.Legal s.params ∧ t.portOut = some (.response (b.reply i.unit i.fc)) ∧
      ∀ u, exec (fromUnit u i) s = .next { t with portOut := some (.response (b.reply u i.fc)) } := by
  obtain ⟨b, t', hb, hexec⟩ := exec_answers i s
  have hself := hexec i.unit
  rw [fromUnit_self, h, Host.Outcome.next.injEq] at hself
  subst hself
  exact ⟨b, hb, rfl, hexec⟩

end Answers

/-! ### Whole transactions -/

section Transactions

variable {req req' : List Byte} {s : State}

theorem transaction_congr (h : decode req' = decode req) : transaction req' s = transaction req s := by
  simp only [transaction, h]

/-- FC 0x0F, its fixed fields and whatever of the run is there. -/
theorem decode_multCoils_words (u : Byte) (start count : Word) (bc : Byte) (tl : List Byte) :
    decode ([u, 0x0F#8] ++ wordBytes start ++ wordBytes count ++ [bc] ++ tl) =
      .request (.writeMultCoils u start count bc (tl.take bc.toNat)) :=
  decode_encode_multCoils u start count bc tl

/-- A run that ends early is noticed after the checks of address, count and byte count (R79, R132). -/
theorem transaction_multCoils_runMissing {start count : Word} {bc : Byte} {tl : List Byte} (u : Byte)
    (hcount : count.toNat ≠ 0) (hrange : start.toNat + count.toNat ≤ s.params.capacity)
    (hbc : bc.toNat = declaredBytes count.toNat) (htl : tl.length < bc.toNat) :
    transaction ([u, 0x0F#8] ++ wordBytes start ++ wordBytes count ++ [bc] ++ tl) s = .next (emitRefused s) := by
  have hchecks : ¬ (count = 0#16 ∨ s.params.capacity < start.toNat + count.toNat) := by
    rintro (rfl | hlt)
    · exact hcount rfl
    · omega
  rw [transaction_request (decode_multCoils_words u start count bc tl), List.take_of_length_le htl.le]
  exact exec_writeMultCoils_runMissing hchecks hbc htl

end Transactions

/-! ### The obligations about transactions -/

/-- Settles O8: what is too short is rejected by the decoder or, for a run, by the handler; what is too long decodes
alike. -/
theorem lengthContract : Obligations.LengthContract := by
  refine fun s => ⟨fun req hlen => transaction_reject (decode_noFunctionCode hlen), fun req fc hfc hmem hlen => ?_,
    fun req hfc hlen => transaction_reject (decode_multCoils_short hfc hlen),
    fun u _ _ _ _ hcount hrange hbc htl => transaction_multCoils_runMissing u hcount hrange hbc htl,
    fun req extra fc hfc hmem hlen => ?_,
    fun req extra _ hfc hbc hlen => transaction_congr (decode_append_multCoils hfc hbc hlen extra)⟩
  · obtain ⟨mk, h⟩ := twoWordFormat_of_mem hmem
    exact transaction_reject (decode_twoWords_short h hfc hlen)
  · obtain ⟨mk, h⟩ := twoWordFormat_of_mem hmem
    exact transaction_congr (decode_append_twoWords h hfc hlen extra)

/-- No code from 16 on is supported (R76). -/
theorem unsupportedCodes_from16 :
    ((List.range 240).map (16 + ·)).filter
      (fun n => !([0x01, 0x03, 0x04, 0x05, 0x06, 0x0F] : List Nat).contains n) = (List.range 240).map (16 + ·) := by
  refine List.filter_eq_self.2 (List.forall_mem_map.2 fun n _ => ?_)
  simp only [List.contains_eq_mem, List.mem_cons, List.not_mem_nil, or_false, Bool.not_eq_true', decide_eq_false_iff_not]
  omega

/-- Of the 256 codes six are supported (R76, R77). -/
theorem unsupportedCodes_length :
    ((List.range 256).filter
      (fun n => !([0x01, 0x03, 0x04, 0x05, 0x06, 0x0F] : List Nat).contains n)).length = 250 := by
  have hsplit : List.range 256 = List.range 16 ++ (List.range 240).map (16 + ·) := List.range_add (n := 16) (m := 240)
  rw [hsplit, List.filter_append, unsupportedCodes_from16, List.length_append, List.length_map, List.length_range]
  rfl

/-- Settles O18, from the decoder's answer and the handler's for each setting of `P_UNSUPPORTED_FC`. -/
theorem unsupportedCodeOutcome : Obligations.UnsupportedCodeOutcome :=
  ⟨unsupportedCodes_length, fun unit _ rest _ hfc => ⟨transaction_request (decode_unsupported hfc unit rest),
    exec_unsupported_noHandler, exec_unsupported_illegalFunction⟩⟩

/-- Settles O37, from the header that every response gets. -/
theorem responseShapes : Obligations.ResponseShapes := by
  intro i s t h
  obtain ⟨body, hlegal, hport, -⟩ := exec_answer_cases h
  rw [hport]
  refine ⟨fun b hb => ReplyBody.reply_success (body := body) ?_, fun b hb => ReplyBody.reply_exception hlegal ?_⟩
  · simpa using hb
  · simpa using hb

/-- Settles O46: under `Suppress` the response from another unit is the same one with byte 0 replaced. -/
theorem unitIsOnlyEchoed : Obligations.UnitIsOnlyEchoed := by
  intro i u s t r hs h hr
  obtain ⟨b, hb, hport, hexec⟩ := exec_answer_cases h
  obtain rfl : b.reply i.unit i.fc = r := by simpa [hport] using hr
  rw [hexec u, ReplyBody.replyToUnit_reply hb hs]

/-- Settles O7: the presented request is the oldest pending operation, and taking it off leaves the state as it was. -/
theorem presentedTableWordRunsNext : Obligations.PresentedTableWordRunsNext := by
  intro s nbits w i hl hw
  have hd : decode (tableWordBytes nbits w) = .request i := by
    unfold decodeTableWord at hw
    cases hdec : decode (tableWordBytes nbits w) with
    | request j => simpa [hdec] using hw
    | reject r => simp [hdec] at hw
  exact (step_pending (s := s.withFetchWord nbits w) hl rfl).trans (transaction_request hd)

end Sys2Proof.Machine

/-! ## The coil store: what each primitive answers -/

namespace Sys2Proof.Machine

/-! ### Packed runs -/

/-- Bit `k` of byte `j` is bit `8j + k` of the run (R51). -/
theorem runBit_byte (run : List Byte) (j : Nat) {k : Nat} (hk : k < 8) :
    runBit run (8 * j + k) = (run.getD j 0#8).getLsbD k := by
  rw [runBit, show (8 * j + k) / 8 = j by omega, show (8 * j + k) % 8 = k by omega]

theorem runBit_take {run : List Byte} {n i : Nat} (h : i / 8 < n) : runBit (run.take n) i = runBit run i := by
  rw [runBit, runBit, List.getD_eq_getElem?_getD, List.getD_eq_getElem?_getD, List.getElem?_take_of_lt h]

/-- Runs of one length are equal when all their bits are. -/
theorem packedRun_ext {p q : List Byte} (hlen : p.length = q.length)
    (hbits : ∀ j k : Nat, k < 8 → (p.getD j 0#8).getLsbD k = (q.getD j 0#8).getLsbD k) : p = q := by
  refine List.ext_getElem hlen fun j hp hq => BitVec.eq_of_getLsbD_eq fun k hk => ?_
  simpa only [List.getD_eq_getElem _ _ hp, List.getD_eq_getElem _ _ hq] using hbits j k hk

/-- A range write of `n` coils reads only the first `n` bits of its run. -/
theorem Memory.unpackCoils_congr (m : Memory) (start : Nat) {run run' : List Byte} {n : Nat}
    (h : ∀ i < n, runBit run i = runBit run' i) : m.unpackCoils start run n = m.unpackCoils start run' n := by
  induction n with
  | zero => rfl
  | succ n ih =>
    rw [Memory.unpackCoils, Memory.unpackCoils, ih fun i hi => h i (Nat.lt_succ_of_lt hi), h n n.lt_succ_self]

/-- The packed bytes of a range just written, bit by bit: the run's own bits, and 0 above `count`. -/
theorem Memory.packCoils_unpackCoils_bit {m : Memory} (h : m.wf) (start count : Nat) (run : List Byte) (j : Nat)
    {k : Nat} (hk : k < 8) :
    (((m.unpackCoils start run count).packCoils start count).getD j 0#8).getLsbD k =
      (decide (8 * j + k < count) && (run.getD j 0#8).getLsbD k) := by
  rw [Memory.packCoils_bit _ _ _ _ _ hk]
  by_cases hin : 8 * j + k < count
  · rw [Memory.coil_unpackCoils h, if_pos ⟨Nat.le_add_right _ _, Nat.add_lt_add_left hin _⟩, Nat.add_sub_cancel_left,
      runBit_byte _ _ hk]
  · simp [hin]

section StoreEquations

variable {s : State} {i start count : Word} {v : Bool} {run : List Byte}

/-! ### The reads (R91, R92) -/

theorem readBit_outOfRange (h : s.params.capacity ≤ i.toNat) : readBit s i = .failed .outOfRange := if_pos h

theorem readBit_inRange (h : i.toNat < s.params.capacity) : readBit s i = .done (s.coil i.toNat) :=
  if_neg (Nat.not_le.2 h)

theorem readRange_outOfRange (h : s.params.capacity < start.toNat + count.toNat) :
    readRange s start count = .failed .outOfRange := if_pos h

theorem readRange_inRange (h : start.toNat + count.toNat ≤ s.params.capacity) :
    readRange s start count = .done (s.cb.packCoils start.toNat count.toNat) := if_neg (Nat.not_lt.2 h)

/-! ### The writes, their failures in the order of R99 (R93, R94) -/

theorem writeBit_outOfRange (h : s.params.capacity ≤ i.toNat) : writeBit s i v = .failed .outOfRange := if_pos h

theorem writeBit_storageFault (h : i.toNat < s.params.capacity) (hf : s.sfaultIn = true) :
    writeBit s i v = .failed .storageFault := (if_neg (Nat.not_le.2 h)).trans (if_pos hf)

theorem writeBit_writes (h : i.toNat < s.params.capacity) (hf : s.sfaultIn = false) :
    writeBit s i v = .done { s with cb := s.cb.setCoil i.toNat v } :=
  (if_neg (Nat.not_le.2 h)).trans (if_neg (Bool.eq_false_iff.1 hf))

theorem writeRange_outOfRange (h : s.params.capacity < start.toNat + count.toNat) :
    writeRange s start count run = .failed .outOfRange := if_pos h

theorem writeRange_storageFault (h : start.toNat + count.toNat ≤ s.params.capacity) (hf : s.sfaultIn = true) :
    writeRange s start count run = .failed .storageFault := (if_neg (Nat.not_lt.2 h)).trans (if_pos hf)

theorem writeRange_writes (h : start.toNat + count.toNat ≤ s.params.capacity) (hf : s.sfaultIn = false)
    (hrun : ceilDiv8 count.toNat ≤ run.length) :
    writeRange s start count run = .done { s with cb := s.cb.unpackCoils start.toNat run count.toNat } :=
  (if_neg (Nat.not_lt.2 h)).trans ((if_neg (Bool.eq_false_iff.1 hf)).trans (if_neg (Nat.not_lt.2 hrun)))

/-- A range write that succeeds has changed the coil buffer only. -/
theorem writeRange_done {t : State} (h : writeRange s start count run = .done t) :
    t = { s with cb := s.cb.unpackCoils start.toNat run count.toNat } := by
  obtain ⟨-, hw⟩ | ⟨-, -, hw⟩ | ⟨-, -, -, hw⟩ | ⟨-, -, -, hw⟩ := writeRange_cases s start count run
  · cases hw.symm.trans h
  · cases hw.symm.trans h
  · cases hw.symm.trans h
  · exact (StoreResult.done.inj (hw.symm.trans h)).symm

/-- Bytes beyond the first `ceil(count/8)` are not read (R94). -/
theorem writeRange_take (s : State) (start count : Word) (run : List Byte) :
    writeRange s start count (run.take (ceilDiv8 count.toNat)) = writeRange s start count run := by
  have hlen : (run.take (ceilDiv8 count.toNat)).length < ceilDiv8 count.toNat ↔ run.length < ceilDiv8 count.toNat := by
    simp
  have hcb : s.cb.unpackCoils start.toNat (run.take (ceilDiv8 count.toNat)) count.toNat =
      s.cb.unpackCoils start.toNat run count.toNat :=
    Memory.unpackCoils_congr _ _ fun i hi => runBit_take (by unfold ceilDiv8; omega)
  simp only [writeRange, hlen, hcb]

end StoreEquations

/-! ### The obligations about the coil store -/

/-- Settles O27: bit `i & 7` of byte `i >> 3` is what `COIL[i]` says (R21). -/
theorem readBitAnswersTheCoil : Obligations.ReadBitAnswersTheCoil := fun _ _ =>
  ⟨readBit_inRange, readBit_outOfRange⟩

/-- Settles O28, by what packing makes of each bit. -/
theorem readRangePacksTheCoils : Obligations.ReadRangePacksTheCoils := fun s start count =>
  ⟨fun h => ⟨_, readRange_inRange h, Memory.packCoils_length _ _ _,
    fun j k hk => Memory.packCoils_bit s.cb start.toNat count.toNat j k hk⟩, readRange_outOfRange⟩

/-- Settles O29: one case of `write_bit` after the other, and what one coil write does to every coil. -/
theorem writeBitWritesOneCoil : Obligations.WriteBitWritesOneCoil := fun _ i v =>
  ⟨writeBit_outOfRange, writeBit_storageFault, fun h hf hwf =>
    ⟨_, writeBit_writes h hf, Memory.coil_setCoil hwf i.toNat v, rfl⟩⟩

/-- Settles O30: one case of `write_range` after the other. The pad bits lie behind the last coil of the range, where a
range write leaves every bit. -/
theorem writeRangeWritesAllOrNothing : Obligations.WriteRangeWritesAllOrNothing := by
  intro s start count run hrun
  refine ⟨writeRange_outOfRange, writeRange_storageFault, fun h hf hwf => ?_, writeRange_take s start count run⟩
  have hcoil := Memory.coil_unpackCoils hwf start.toNat run count.toNat
  refine ⟨_, writeRange_writes h hf hrun, hcoil, fun hpad j hj => ?_, rfl⟩
  have hbeyond : ¬ (start.toNat ≤ j ∧ j < start.toNat + count.toNat) := by omega
  exact (hcoil j).trans ((if_neg hbeyond).trans (hpad j hj))

/-- Settles O31: the bits read back are the run's own below `count` and 0 above it, so that a canonical run of the same
length agrees with what is read in every bit. -/
theorem readAfterWriteReturnsCanonicalBytes : Obligations.ReadAfterWriteReturnsCanonicalBytes := by
  intro s t start count run hwf h hw
  obtain rfl := writeRange_done hw
  have hbit := fun j k hk => Memory.packCoils_unpackCoils_bit hwf start.toNat count.toNat run j (k := k) hk
  have hlen := Memory.packCoils_length (s.cb.unpackCoils start.toNat run count.toNat) start.toNat count.toNat
  refine ⟨_, readRange_inRange h, hlen, hbit, fun hrun hpad => ?_⟩
  refine packedRun_ext (hlen.trans hrun.symm) fun j k hk => (hbit j k hk).trans ?_
  by_cases hin : 8 * j + k < count.toNat
  · simp [hin]
  · rw [hpad j k hk (Nat.not_lt.1 hin), Bool.and_false]

/-- Settles O32: each primitive checks its range before anything else. -/
theorem outOfRangeAccessesFail : Obligations.OutOfRangeAccessesFail := fun _ =>
  ⟨fun _ _ h => ⟨readBit_outOfRange h, writeBit_outOfRange h⟩,
    fun _ _ _ h => ⟨readRange_outOfRange h, writeRange_outOfRange h⟩⟩

/-- Settles O33: the range check reads nothing of the storage-fault input. -/
theorem rangeIsCheckedBeforeStorageFault : Obligations.RangeIsCheckedBeforeStorageFault := fun _ _ _ _ _ _ =>
  ⟨fun h => writeBit_outOfRange h, fun h => writeBit_storageFault h rfl, fun h => writeRange_outOfRange h,
    fun h => writeRange_storageFault h rfl⟩

end Sys2Proof.Machine

/-! ## The cursor reads (R111 to R113, R115) -/

namespace Sys2Proof

section CursorReads

variable {req : List Byte} {o n : Nat} {b c : Byte}

theorem req8_of_getElem? (h : req[o]? = some b) : req8 req o = some (b, o + 1) := by
  simp only [req8, h]

theorem req8_eq_none_iff : req8 req o = none ↔ o + 1 > req.length := by
  cases h : req[o]? with
  | none =>
    have hlen := List.getElem?_eq_none_iff.1 h
    simp only [req8, h, true_iff]
    omega
  | some b =>
    obtain ⟨hlen, -⟩ := List.getElem?_eq_some_iff.1 h
    simp only [req8_of_getElem? h, reduceCtorEq, false_iff]
    omega

theorem req16_of_getElem? (hb : req[o]? = some b) (hc : req[o + 1]? = some c) :
    req16 req o = some (wordOfBytes b c, o + 2) := by
  simp only [req16, hb, hc]

/-- The second byte is the one that can be missing alone: where it is there, so is the first. -/
theorem req16_eq_none_iff : req16 req o = none ↔ o + 2 > req.length := by
  cases hc : req[o + 1]? with
  | none =>
    have hlen := List.getElem?_eq_none_iff.1 hc
    have hnone : req16 req o = none := by cases hb : req[o]? <;> simp only [req16, hb, hc]
    simp only [hnone, true_iff]
    omega
  | some c =>
    obtain ⟨hlen, -⟩ := List.getElem?_eq_some_iff.1 hc
    have hb : req[o]? = some req[o] := List.getElem?_eq_getElem (by omega)
    simp only [req16_of_getElem? hb hc, reduceCtorEq, false_iff]
    omega

theorem reqRun_inRange (h : o + n ≤ req.length) : reqRun req o n = some ((req.drop o).take n, o + n) :=
  if_neg (Nat.not_lt.2 h)

theorem reqRun_eq_none_iff : reqRun req o n = none ↔ o + n > req.length := by
  obtain ⟨h, hr⟩ | ⟨h, hr⟩ := reqRun_cases req o n
  · simp only [hr, gt_iff_lt, h]
  · simp only [hr, reduceCtorEq, false_iff, gt_iff_lt, Nat.not_lt, h]

end CursorReads

/-- Settles O5: each read by what it answers where the bytes are there, and by when they are not. -/
theorem cursorReads : Obligations.CursorReads := by
  refine fun req o n => ⟨fun b => req8_of_getElem?, req8_eq_none_iff,
    fun b c hb hc => ⟨_, req16_of_getElem? hb hc, wordOfBytes_toNat b c⟩, req16_eq_none_iff,
    fun h => ⟨_, reqRun_inRange h, ?_, fun k hk => ?_⟩, reqRun_eq_none_iff⟩
  · rw [List.length_take, List.length_drop]
    omega
  · rw [List.getElem?_take_of_lt hk, List.getElem?_drop]

end Sys2Proof

/-! ## The response encoder, and the outcome of a transaction -/

namespace Sys2Proof.Machine

section Encoder

variable {s : State}

/-! ### What the adds append (R117 to R119, R122) -/

/-- The two bytes that `Add16` sends stand for its word (R118). -/
theorem toNat_eq_hiByte_loByte (w : Word) : w.toNat = (hiByte w).toNat * 256 + (loByte w).toNat := by
  rw [← wordOfBytes_toNat, wordOfBytes_hi_lo]

/-- `Add8` is `AddRun` of one byte. -/
theorem add8_eq_addRun (v : Byte) (s : State) : add8 v s = addRun [v] s := rfl

/-- `Add16` is `AddRun` of the word's two bytes. -/
theorem add16_eq_addRun (w : Word) (s : State) : add16 w s = addRun (wordBytes w) s := rfl

/-- An add after `SetError` appends behind the three exception bytes and leaves the marker set (R122). -/
theorem addRun_setError (run : List Byte) (unit fc code : Byte) (s : State) :
    addRun run (setError unit fc code s) =
      { s with txn := { s.txn with rsp := [unit, fc ||| 0x80#8, code] ++ run, rspErr := true } } := rfl

/-- A function code from 0x80 on has bit 7 set, the only bit that `SetError` sets in it (R120). -/
theorem or_0x80_eq_self {fc : Byte} (h : 0x80 ≤ fc.toNat) : fc ||| 0x80#8 = fc := by
  have hmsb : fc.msb = true := fc.msb_eq_decide.trans (decide_eq_true h)
  have hbit : fc.getLsbD 7 = true := (BitVec.msb_eq_getLsbD_last fc).symm.trans hmsb
  have hmask : (0x80#8 : Byte) = BitVec.twoPow 8 7 := rfl
  refine BitVec.eq_of_getLsbD_eq fun k hk => ?_
  rw [BitVec.getLsbD_or, hmask, BitVec.getLsbD_twoPow]
  by_cases hk7 : 7 = k
  · simp [← hk7, hbit]
  · simp [hk7]

/-! ### The outcome at the end of a handler (R123) -/

theorem emit_of_rspErr (h : s.txn.rspErr = true) : emit s = emitReply (.exception s.txn.rsp) s := by
  simp only [emit, h, if_true]

theorem emit_of_not_rspErr (h : s.txn.rspErr = false) : emit s = emitReply (.success s.txn.rsp) s := by
  simp only [emit, h, Bool.false_eq_true, if_false]

/-- Any bytes in any state get an outcome: the decoder rejects them, or their request is answered. -/
theorem transaction_answers (req : List Byte) (s : State) :
    ∃ (t : State) (r : Reply), transaction req s = .next t ∧ t.portOut = some (.response r) := by
  cases hd : decode req with
  | reject _ => exact ⟨_, .refused, transaction_reject hd, emitRefused_portOut s⟩
  | request i =>
    obtain ⟨e, he⟩ := exec_effect i s
    obtain ⟨_, -, hport, -⟩ := exec_answer_cases he.exec_eq
    exact ⟨_, _, (transaction_request hd).trans he.exec_eq, hport⟩

end Encoder

/-! ### The obligations about the encoder -/

/-- Settles O10, from `emit` at each value of the marker and the answer that every transaction gets. -/
theorem oneOutcomePerRequest : Obligations.OneOutcomePerRequest :=
  ⟨fun _ => emit_of_rspErr, fun _ => emit_of_not_rspErr, transaction_answers⟩

/-- Settles O34: each add by its own equation; the two bytes of a word are its high and its low byte. -/
theorem encoderAppends : Obligations.EncoderAppends := fun _ _ w _ =>
  ⟨rfl, ⟨hiByte w, loByte w, toNat_eq_hiByte_loByte w, rfl⟩, rfl⟩

/-- Settles O35: every add is an `AddRun`, which appends behind the exception bytes. -/
theorem setErrorDiscardsAndAddsFollow : Obligations.SetErrorDiscardsAndAddsFollow := by
  intro s unit fc code v w run
  refine ⟨rfl, or_0x80_eq_self, ?_, ?_, addRun_setError run unit fc code s⟩
  · rw [add8_eq_addRun, addRun_setError]
    rfl
  · rw [add16_eq_addRun, addRun_setError]
    rfl

end Sys2Proof.Machine

/-! ## The function codes: result, exception and frame of each handler -/

namespace Sys2Proof.Machine

section FunctionCodes

variable {unit : Byte} {s : State}

/-! ### Requests that end before their fixed fields (R79) -/

theorem transaction_twoWords_short {fc : Byte} {mk : Byte → Word → Word → Instr} {req : List Byte}
    (h : TwoWordFormat fc mk) (hfc : req[1]? = some fc) (hlen : req.length < 6) :
    transaction req s = .next (emitRefused s) :=
  transaction_reject (decode_twoWords_short h hfc hlen)

/-! ### The exception response of a request whose function code is known (R182) -/

theorem raise_openTxn_of_fc {i : Instr} {fc : Byte} (k : ErrorKind) (s : State) (hfc : i.fc = fc) :
    raise k (openTxn i s) = .next { s with
      portOut := some (.response (.exception [i.unit, fc ||| 0x80#8, exceptionCode k]))
      txn := Txn.idle } :=
  hfc ▸ raise_openTxn k i s

/-! ### FC 0x01 READ_COIL (R127) -/

/-- The packed bytes of any range of a legal store can be counted in one byte, since `N <= 2040` (R7). -/
theorem packedLength_toNat {start count : Nat} (hl : s.params.legal = true) (h : start + count ≤ s.params.capacity) :
    (BitVec.ofNat 8 (ceilDiv8 count)).toNat = ceilDiv8 count := by
  obtain ⟨-, hcap⟩ := (params_legal_iff s.params).1 hl
  rw [BitVec.toNat_ofNat]
  refine Nat.mod_eq_of_lt ?_
  unfold ceilDiv8
  omega

/-! ### FC 0x03 READ_HOLD_REGISTER: the sample (R128, R173) -/

theorem drawDist_driven {d : Word} (h : s.distIn = some d) : drawDist s = (d, s) := by
  simp only [drawDist, h]

/-- A sample of `DIST` uses up a free index at most. -/
theorem drawDist_frame (s : State) : (drawDist s).2 = { s with freeCount := (drawDist s).2.freeCount } := by
  obtain ⟨d, -, hd⟩ | ⟨-, hd⟩ := drawDist_cases s <;> rw [hd]

theorem registerData_holdWords (wordCount : Word) (s : State) :
    registerData holdWords wordCount s = BitVec.ofNat 8 (2 * wordCount.toNat) ::
      (List.replicate wordCount.toNat [hiByte (drawDist s).1, loByte (drawDist s).1]).flatten := by
  rw [registerData, holdWords, List.flatMap_def, List.map_replicate]
  rfl

/-! ### FC 0x04 READ_INPUT_REGISTER: the draws (R129, R174) -/

/-- The `k`-th of the coming draws of `RAND`: a supplied value, or a free value behind the supply (log 6). -/
def randDrawAt (s : State) (k : Nat) : Config.RandDraw :=
  s.randIn[k]?.getD (Config.freeRand (s.freeCount + (k - s.randIn.length)))

theorem randDrawAt_supplied {k : Nat} {r : Config.RandDraw} (h : s.randIn[k]? = some r) : randDrawAt s k = r := by
  rw [randDrawAt, h, Option.getD_some]

theorem drawRand_fst (s : State) : (drawRand s).1 = randWord (randDrawAt s 0) := by
  obtain ⟨r, rest, hr, hd⟩ | ⟨hr, hd⟩ := drawRand_cases s <;> simp [hd, randDrawAt, hr]

/-- After one draw the next ones move up by one. -/
theorem randDrawAt_drawRand (s : State) (k : Nat) : randDrawAt (drawRand s).2 k = randDrawAt s (k + 1) := by
  obtain ⟨r, rest, hr, hd⟩ | ⟨hr, hd⟩ := drawRand_cases s
  · simp [hd, randDrawAt, hr]
  · simp [hd, randDrawAt, hr, Nat.add_assoc, Nat.add_comm 1]

theorem drawRands_words (n : Nat) (s : State) :
    (drawRands n s).1 = (List.range n).map fun k => randWord (randDrawAt s k) := by
  induction n generalizing s with
  | zero => rfl
  | succ n ih =>
    have hrest : (drawRands n (drawRand s).2).1 = (List.range n).map fun k => randWord (randDrawAt s (k + 1)) := by
      simp only [ih, randDrawAt_drawRand]
    rw [List.range_succ_eq_map, List.map_cons, List.map_map]
    exact congrArg₂ List.cons (drawRand_fst s) hrest

/-- Every drawn word is in `[1, 65535]` (R174). -/
theorem drawRands_range {n : Nat} {w : Word} (h : w ∈ (drawRands n s).1) : 1 ≤ w.toNat ∧ w.toNat ≤ 65535 := by
  rw [drawRands_words, List.mem_map] at h
  obtain ⟨k, -, rfl⟩ := h
  have hr := (randDrawAt s k).isLt
  rw [randWord_toNat]
  omega

theorem drawRands_supplied {n k : Nat} {r : Config.RandDraw} (hk : k < n) (h : s.randIn[k]? = some r) :
    (drawRands n s).1[k]? = some (randWord r) := by
  rw [drawRands_words, List.getElem?_map, List.getElem?_range hk, Option.map_some, randDrawAt_supplied h]

/-! ### FC 0x05 WRITE_COIL (R130, R139) -/

theorem legalOnOffCode_iff {code : Word} : legalOnOffCode code = true ↔ code = 0x0000#16 ∨ code = 0xFF00#16 := by
  simp only [legalOnOffCode, Bool.or_eq_true, beq_iff_eq]

theorem legalOnOffCode_eq_false {code : Word} (h0 : code ≠ 0x0000#16) (h1 : code ≠ 0xFF00#16) :
    legalOnOffCode code = false :=
  Bool.eq_false_iff.2 fun h => (legalOnOffCode_iff.1 h).elim h0 h1

theorem onOffValue_eq_decide (code : Word) : onOffValue code = decide (code = 0xFF00#16) :=
  Bool.beq_eq_decide_eq code _

/-! ### FC 0x06 WRITE_HOLD_REGISTER (R131) -/

theorem word_eq_zero_iff {w : Word} : w = 0#16 ↔ w.toNat = 0 := BitVec.toNat_eq

/-! ### FC 0x0F WRITE_MULT_COILS (R132, R141) -/

section MultCoils

variable {start count : Word} {bc : Byte} {packed : List Byte}

/-- A request that passes the first check of R132. -/
theorem multCoils_range_ok (h0 : count.toNat ≠ 0) (hr : start.toNat + count.toNat ≤ s.params.capacity) :
    ¬ (count = 0#16 ∨ s.params.capacity < start.toNat + count.toNat) := by
  rw [word_eq_zero_iff]
  omega

/-- The declared bytes hold every bit that the store reads (R141). -/
theorem runBit_take_declared (hb : bc.toNat = declaredBytes count.toNat) {i : Nat} (hi : i < count.toNat) :
    runBit (packed.take bc.toNat) i = runBit packed i :=
  runBit_take (by unfold declaredBytes at hb; omega)

/-- From `count` 2040 on no 8-bit value is the legal byte count (R141). -/
theorem byteCount_ne_declaredBytes (bc : Byte) {n : Nat} (h : 2040 ≤ n) : bc.toNat ≠ declaredBytes n := by
  have hbc := bc.isLt
  unfold declaredBytes
  omega

/-- Bits of the run above `count` are never looked at (R141). -/
theorem exec_writeMultCoils_congr {p q : List Byte} (hp : bc.toNat ≤ p.length) (hq : bc.toNat ≤ q.length)
    (h : ∀ i < count.toNat, runBit p i = runBit q i) :
    exec (.writeMultCoils unit start count bc p) s = exec (.writeMultCoils unit start count bc q) s := by
  have hraise : ∀ k, raise k (openTxn (.writeMultCoils unit start count bc p) s) =
      raise k (openTxn (.writeMultCoils unit start count bc q) s) := fun _ => rfl
  by_cases hr : count = 0#16 ∨ s.params.capacity < start.toNat + count.toNat
  · rw [exec_writeMultCoils_outOfRange hr, exec_writeMultCoils_outOfRange hr, hraise]
  by_cases hb : bc.toNat = declaredBytes count.toNat
  · cases hf : s.sfaultIn with
    | true =>
      rw [exec_writeMultCoils_storageFault hr hb hp hf, exec_writeMultCoils_storageFault hr hb hq hf, hraise]
    | false =>
      have hbits : ∀ i < count.toNat, runBit (p.take bc.toNat) i = runBit (q.take bc.toNat) i := fun i hi => by
        rw [runBit_take_declared hb hi, runBit_take_declared hb hi, h i hi]
      rw [exec_writeMultCoils_writes hr hb hp hf, exec_writeMultCoils_writes hr hb hq hf,
        Memory.unpackCoils_congr _ _ hbits]
  · rw [exec_writeMultCoils_badByteCount hr hb, exec_writeMultCoils_badByteCount hr hb, hraise]

end MultCoils

/-! ### What an outcome other than Success leaves (R137) -/

theorem Effect.apply_of_not_success {e : Effect} {r : Reply} (hr : (e.apply s).portOut = some (.response r))
    (hns : isSuccess r = false) :
    (e.apply s).cb = s.cb ∧ (e.apply s).duty = s.duty ∧ (e.apply s).trig = s.trig := by
  cases e with
  | answer => exact ⟨rfl, rfl, rfl⟩
  | setCoils cb rsp =>
    obtain rfl : .success rsp = r := by simpa [Effect.apply] using hr
    cases hns
  | setDuty duty rsp =>
    obtain rfl : .success rsp = r := by simpa [Effect.apply] using hr
    cases hns

end FunctionCodes

/-! ### The obligations about the function codes -/

/-- Settles O9: every request has an effect, which ends the transaction with its one response. -/
theorem everyHandlerEndsInOneOutcome : Obligations.EveryHandlerEndsInOneOutcome := by
  refine ⟨fun i s => ?_, fun s => ⟨raise_eq .outOfRange s, raise_eq .storageFault s⟩⟩
  obtain ⟨e, he⟩ := exec_effect i s
  obtain ⟨body, -, hport, -⟩ := exec_answer_cases he.exec_eq
  exact ⟨_, _, he.exec_eq, hport, e.apply_txn s⟩

/-- Settles O11, from what packing makes of each bit. -/
theorem readCoilAnswersPackedCoils : Obligations.ReadCoilAnswersPackedCoils := by
  refine fun unit start count s => ⟨fun h => ?_, fun h => ?_, fun req => transaction_twoWords_short .readCoil⟩
  · have hlen := Memory.packCoils_length s.cb start.toNat count.toNat
    refine ⟨_, hlen, fun j k hk => Memory.packCoils_bit s.cb start.toNat count.toNat j k hk, fun hl => ?_, ?_⟩
    · rw [hlen, packedLength_toNat hl h]
    · rw [hlen]
      exact exec_readCoil_inRange h
  · exact (exec_readCoil_outOfRange h).trans (raise_openTxn_of_fc (fc := 0x01#8) _ s rfl)

/-- Settles O12: one sample of `DIST` stands in every word, of the response and of the trailer. -/
theorem readHoldRegisterRepeatsOneSample : Obligations.ReadHoldRegisterRepeatsOneSample := by
  intro unit addr wordCount s
  have hstate : (holdWords wordCount.toNat s).2 = { s with freeCount := (drawDist s).2.freeCount } := drawDist_frame s
  refine ⟨(drawDist s).1, (drawDist s).2.freeCount, fun x hx => ?_, fun h => ?_, fun h ht => ?_, fun h ht => ?_,
    fun req => transaction_twoWords_short .readHoldRegister⟩
  · rw [drawDist_driven hx]
    exact ⟨rfl, rfl⟩
  · refine (readRegisters_inRange holdWords_ignoresTxn h).trans ?_
    rw [registerData_holdWords, hstate]
    rfl
  · exact (readRegisters_suppress h ht).trans (raise_openTxn_of_fc (fc := 0x03#8) _ s rfl)
  · refine (readRegisters_append holdWords_ignoresTxn h ht).trans ?_
    simp only [registerData_holdWords, hstate, Instr.fc]
    rfl

/-- Settles O13: each word is a draw of its own, and the draws use up the supply first. -/
theorem readInputRegisterDrawsEachWord : Obligations.ReadInputRegisterDrawsEachWord := by
  intro unit addr wordCount s
  obtain ⟨hframe, hlen⟩ := drawRands_frame wordCount.toNat s
  have hstate : (inputWords wordCount.toNat s).2 = _ := hframe
  refine ⟨(drawRands wordCount.toNat s).1, s.freeCount + (wordCount.toNat - s.randIn.length), hlen,
    fun w => drawRands_range, fun h => by omega, fun k r hk hr => ⟨_, drawRands_supplied hk hr, randWord_toNat r⟩,
    fun h => ?_, fun h ht => ?_, fun h ht => ?_, fun req => transaction_twoWords_short .readInputRegister⟩
  · refine (readRegisters_inRange inputWords_ignoresTxn h).trans ?_
    rw [hstate]
    rfl
  · exact (readRegisters_suppress h ht).trans (raise_openTxn_of_fc (fc := 0x04#8) _ s rfl)
  · refine (readRegisters_append inputWords_ignoresTxn h ht).trans ?_
    simp only [hstate, Instr.fc]
    rfl

/-- Settles O15, one check after the other, and what one coil write does to every coil and every byte. -/
theorem writeCoilWritesOneCoil : Obligations.WriteCoilWritesOneCoil := by
  intro unit coilIndex code s
  have hraise k := raise_openTxn_of_fc (i := .writeCoil unit coilIndex code) (fc := 0x05#8) k s rfl
  refine ⟨fun h0 h1 => ?_, fun hc h => ?_, fun hc h hf => ?_, fun hc h hf hwf => ?_,
    fun req => transaction_twoWords_short .writeCoil⟩
  · exact (exec_writeCoil_badValue (legalOnOffCode_eq_false h0 h1)).trans (hraise _)
  · exact (exec_writeCoil_outOfRange (legalOnOffCode_iff.2 hc) h).trans (hraise _)
  · exact (exec_writeCoil_storageFault (legalOnOffCode_iff.2 hc) h hf).trans (hraise _)
  · have hcoil := Memory.coil_setCoil hwf coilIndex.toNat (onOffValue code)
    exact ⟨_, exec_writeCoil_writes (legalOnOffCode_iff.2 hc) h hf,
      (hcoil _).trans ((if_pos rfl).trans (onOffValue_eq_decide code)),
      fun j hj => (hcoil j).trans (if_neg hj), fun a ha => Memory.read_setCoil_other _ _ _ ha, rfl⟩

/-- Settles O16: `DUTY` takes the clamped value. -/
theorem writeHoldRegisterSetsDuty : Obligations.WriteHoldRegisterSetsDuty := by
  refine fun unit addr value s => ⟨fun h => ?_, fun h => ?_,
    fun req => transaction_twoWords_short .writeHoldRegister⟩
  · obtain rfl := word_eq_zero_iff.2 h
    exact ⟨clampDuty value, clampDuty_toNat value, exec_writeHoldRegister_writes⟩
  · have haddr : addr ≠ 0#16 := mt word_eq_zero_iff.1 h
    exact (exec_writeHoldRegister_outOfRange haddr).trans (raise_openTxn_of_fc (fc := 0x06#8) _ s rfl)

/-- Settles O17, one check after the other, and what a range write does to every coil and every byte. -/
theorem writeMultCoilsWritesTheRange : Obligations.WriteMultCoilsWritesTheRange := by
  intro unit start count bc packed s
  have hraise k := raise_openTxn_of_fc (i := .writeMultCoils unit start count bc packed) (fc := 0x0F#8) k s rfl
  refine ⟨fun h => ?_, fun h0 hr hb => ?_, fun h0 hr hb hp => ?_,
    fun h0 hr hb hp hf => ?_, fun h0 hr hb hp hf hwf => ?_,
    fun req hfc hlen => transaction_reject (decode_multCoils_short hfc hlen)⟩
  · exact (exec_writeMultCoils_outOfRange (h.imp_left word_eq_zero_iff.2)).trans (hraise _)
  · exact (exec_writeMultCoils_badByteCount (multCoils_range_ok h0 hr) hb).trans (hraise _)
  · exact exec_writeMultCoils_runMissing (multCoils_range_ok h0 hr) hb hp
  · exact (exec_writeMultCoils_storageFault (multCoils_range_ok h0 hr) hb hp hf).trans (hraise _)
  · have hcoil := Memory.coil_unpackCoils hwf start.toNat (packed.take bc.toNat) count.toNat
    refine ⟨_, exec_writeMultCoils_writes (multCoils_range_ok h0 hr) hb hp hf, fun i hi => ?_, fun j hj => ?_,
      fun a ha => Memory.read_unpackCoils_other _ _ _ _ ha, rfl⟩
    · refine (hcoil _).trans ((if_pos ⟨Nat.le_add_right _ _, Nat.add_lt_add_left hi _⟩).trans ?_)
      rw [Nat.add_sub_cancel_left, runBit_take_declared hb hi]
      rfl
    · exact (hcoil j).trans (if_neg (by omega))

/-- Settles O20: the arithmetic of the check, the counts that no byte can declare, and the bits that the store reads. -/
theorem byteCountCheck : Obligations.ByteCountCheck := by
  refine ⟨fun count => ?_, fun unit start count bc packed s h hr => ?_,
    fun unit start count bc p q s hp hq h => exec_writeMultCoils_congr hp hq h⟩
  · have hdeclared : declaredBytes count = count / 8 + 1 := rfl
    exact ⟨hdeclared, by omega, by omega, fun h0 h7 => by omega⟩
  · have hrange := multCoils_range_ok (by omega) hr
    exact (exec_writeMultCoils_badByteCount hrange (byteCount_ne_declaredBytes bc h)).trans
      (raise_openTxn_of_fc (fc := 0x0F#8) _ s rfl)

/-- Settles O41: only the effects that answer a success write anything. -/
theorem onlySuccessChangesState : Obligations.OnlySuccessChangesState := by
  intro i s t r h hr hns
  obtain ⟨e, -, rfl⟩ := exec_cases h
  exact Effect.apply_of_not_success hr hns

/-- Settles O19, from the write of holding address 0 and the value of the clamp. -/
theorem dutyIsClamped : Obligations.DutyIsClamped := fun _ value _ =>
  ⟨_, exec_writeHoldRegister_writes, clampDuty_toNat value, fun h => h ▸ rfl, fun h => h ▸ rfl⟩

end Sys2Proof.Machine

/-! ## The ports: draws of `RAND`, `TAKE_TRIGGER`, the input pins and the output levels -/

namespace Sys2Proof.Machine

/-- Within the supply a draw is the supplied value at its place; behind it, the free values count on (log 6). -/
theorem randDrawAt_eq_dite (s : State) (k : Nat) :
    randDrawAt s k = if h : k < s.randIn.length then s.randIn[k]
      else Config.freeRand (s.freeCount + (k - s.randIn.length)) := by
  by_cases h : k < s.randIn.length
  · rw [dif_pos h, randDrawAt_supplied (List.getElem?_eq_getElem h)]
  · rw [dif_neg h, randDrawAt, List.getElem?_eq_none (Nat.not_lt.1 h), Option.getD_none]

theorem coilOut_length (s : State) : s.coilOut.length = s.params.capacity := by
  rw [State.coilOut, List.length_map, List.length_range, capacity]

/-- `coil_out` carries `COIL[i]` at its place `i` (R172). -/
theorem coilOut_getElem? {s : State} {i : Nat} (h : i < s.params.capacity) : s.coilOut[i]? = some (s.coil i) := by
  rw [State.coilOut, List.getElem?_map, capacity, List.getElem?_range h, Option.map_some]

/-! ### The obligations about the ports -/

/-- Settles O14: the words are the coming draws in order, and `drawRands_frame` gives what `n` draws leave. -/
theorem drawsTakeTheSupplyThenFreeValues : Obligations.DrawsTakeTheSupplyThenFreeValues := by
  refine fun n s => Prod.ext ?_ (drawRands_frame n s).1
  simp only [drawRands_words, randDrawAt_eq_dite]

/-- Settles O21: the step performs `takeTrigger`; where `TRIG` is 0 already, clearing it leaves it as it was. -/
theorem takeTriggerReadsAndClears : Obligations.TakeTriggerReadsAndClears := by
  intro s rest hl hp
  have htake : step s = .next { s with trig := false, portOut := some (.taken s.trig), pending := rest } :=
    step_pending hl hp
  exact ⟨htake, fun h0 => by rw [htake, h0]⟩

/-- Settles O25: the step performs the one change of a pin that is pending. -/
theorem pinChangesTouchOnlyThePin : Obligations.PinChangesTouchOnlyThePin :=
  fun _ _ hl => ⟨fun _ hp => step_pending hl hp, fun _ hp => step_pending hl hp, fun _ hp => step_pending hl hp⟩

/-- Settles O26: `coil_out` lists the coils in order, and the other two levels are registers. -/
theorem outputLevels : Obligations.OutputLevels :=
  fun s => ⟨coilOut_length s, fun _ => coilOut_getElem?, rfl, rfl⟩

end Sys2Proof.Machine

/-! ## Refused parameters and exception codes -/

namespace Sys2Proof.Machine

/-- The illegal parameters are those with `N = 0` or `N > 2040` (R7). -/
theorem params_illegal_iff (p : Config.Params) : p.legal = false ↔ p.capacity = 0 ∨ 2040 < p.capacity := by
  rw [← Bool.not_eq_true, params_legal_iff]
  omega

/-! ### The obligations about idle steps, illegal parameters and exceptions -/

/-- Settles O24: the two branches of a step in which no operation is performed. -/
theorem idleAndIllegalSteps : Obligations.IdleAndIllegalSteps :=
  ⟨fun _ => step_idle, fun s h => step_illegal ((params_illegal_iff s.params).2 h)⟩

/-- Settles O36: the code is `exceptionCode k`, evaluated at each kind, and `raise_eq` says all that taking the exception
does. -/
theorem errorKindsTranslateToCodes : Obligations.ErrorKindsTranslateToCodes := fun k s =>
  ⟨exceptionCode k, congrArg exceptionCode, congrArg exceptionCode, congrArg exceptionCode, congrArg exceptionCode,
    raise_eq k s⟩

end Sys2Proof.Machine

/-! ## Reset -/

namespace Sys2Proof.Machine

/-- Settles O22: the step performs `resetBlock`, which empties the buffer; behind it, a legal block with nothing pending is
idle. -/
theorem resetSetsResetValues : Obligations.ResetSetsResetValues := by
  intro s rest hl hp
  have hstep : step s = .next (resetBlock { s with pending := rest }) := step_pending hl hp
  have hidle (hrest : rest = []) :
      step (resetBlock { s with pending := rest }) = .next (resetBlock { s with pending := rest }) :=
    step_idle (s := resetBlock { s with pending := rest }) hl hrest
  exact ⟨_, hstep, Memory.coil_nil, Memory.read_nil, rfl, hidle⟩

end Sys2Proof.Machine
